-- ==== Sys2Proof/Word.lean ====
section
/-! DEFINITION. The two word sizes of the hardware (00_scope.md R10). -/

namespace Sys2Proof

/-- A byte, `uint8` of R10. -/
abbrev Byte := BitVec 8

/-- A 16-bit register field: `uint16` of R10, and the two's-complement pattern of an `int16`. -/
abbrev U16 := BitVec 16

end Sys2Proof
end

