-- ==== Sys2Proof/Syntax.lean ====
section
/-! DEFINITION. The fourteen operations of 30_encoding.md R92, one constructor for each row of spec/opcode_table.json,
and their textual form (R104). -/

namespace Sys2Proof

/-- The channel code `ch` (R94); the illegal code 3 has no constructor. -/
inductive Channel where
  | A
  | B
  | X
  deriving DecidableEq, Repr, Inhabited

/-- The `bank` bit of `PE.ENCODE` (R91): sample registers or average registers. -/
inductive Bank where
  | S
  | AV
  deriving DecidableEq, Repr, Inhabited

/-- An operation (R92). `kind` of `PE.ENCODE` is the tag and slot index of R95, a number; WellFormed.lean bounds it to
the two bits of the word. -/
inductive Instr where
  | nop
  | tsdDecode
  | fppParse
  | fppCmd
  | raaPush (ch : Channel)
  | raaAvg (ch : Channel)
  | raaAdv
  | peEncode (kind : Nat) (bank : Bank)
  | indBand
  | auxSample
  | fppRead
  | rotStep
  | waitRetry
  | waitCycle
  deriving DecidableEq, Repr

/-- R104: `ch` is written `A`, `B` or `X`. -/
def Channel.text : Channel → String
  | .A => "A"
  | .B => "B"
  | .X => "X"

/-- R104: `bank` is written `S` or `AV`. -/
def Bank.text : Bank → String
  | .S => "S"
  | .AV => "AV"

/-- R104: `kind` is written `LIVE` (0), `AVG` (1) or a number. -/
def kindText : Nat → String
  | 0 => "LIVE"
  | 1 => "AVG"
  | n => toString n

/-- The textual form of an operation (R104): the mnemonic of R92, then the operands separated by commas. -/
def Instr.text : Instr → String
  | .nop => "NOP"
  | .tsdDecode => "TSD.DECODE"
  | .fppParse => "FPP.PARSE"
  | .fppCmd => "FPP.CMD"
  | .raaPush ch => "RAA.PUSH " ++ ch.text
  | .raaAvg ch => "RAA.AVG " ++ ch.text
  | .raaAdv => "RAA.ADV"
  | .peEncode kind bank => "PE.ENCODE " ++ kindText kind ++ ", " ++ bank.text
  | .indBand => "IND.BAND"
  | .auxSample => "AUX.SAMPLE"
  | .fppRead => "FPP.READ"
  | .rotStep => "ROT.STEP"
  | .waitRetry => "WAIT.RETRY"
  | .waitCycle => "WAIT.CYCLE"

end Sys2Proof
end

