-- ==== Sys2Proof/WellFormed.lean ====
section
/-! DEFINITION. Which terms of `Instr` stand for an operation of 30_encoding.md R92. -/

namespace Sys2Proof

/-- R91, R95: `kind` is one of 0 to 3 (2 and 3 decode, and fail in execution). Every other operand is already a legal
one by its type. -/
def Instr.wellFormed : Instr → Bool
  | .nop => true
  | .tsdDecode => true
  | .fppParse => true
  | .fppCmd => true
  | .raaPush _ => true
  | .raaAvg _ => true
  | .raaAdv => true
  | .peEncode kind _ => decide (kind < 4)
  | .indBand => true
  | .auxSample => true
  | .fppRead => true
  | .rotStep => true
  | .waitRetry => true
  | .waitCycle => true

end Sys2Proof
end

