-- ==== Sys2Proof/Decode.lean ====
section
/-! DEFINITION. The decoder of the 8-bit command word (30_encoding.md R90 to R95), total and rejecting by name, and the
encoder, written from the same map R92. -/

namespace Sys2Proof

/-- Who puts a word before the decoder (R90, R92). -/
inductive Issuer where
  | orc
  | host
  | rot
  deriving DecidableEq, Repr

/-- Why a word is illegal: cases (a) to (d) of R93. -/
inductive DecodeError where
  /-- (a) `op` is 0xD, 0xE or 0xF. -/
  | reservedOp
  /-- (b) a bit that the format says must be 0 is 1. -/
  | mustBeZero
  /-- (c) the format is C and `ch = 3`. -/
  | illegalChannel
  /-- (d) the word is `ROT.STEP` and the issuer is not ROT. -/
  | notFromRot
  deriving DecidableEq, Repr

/-- R90: `cmd[7:4]`. -/
def opField (w : Byte) : BitVec 4 := w.extractLsb' 4 4

/-- R90: `cmd[3:0]`. -/
def argField (w : Byte) : BitVec 4 := w.extractLsb' 0 4

/-- Format Z (R91): every argument bit must be 0. -/
def decodeZ (i : Instr) (arg : BitVec 4) : Except DecodeError Instr :=
  if arg = 0 then .ok i else .error .mustBeZero

/-- R94: the channel of a two-bit code. -/
def channelOfCode (c : BitVec 2) : Option Channel :=
  match c.toNat with
  | 0 => some .A
  | 1 => some .B
  | 2 => some .X
  | _ => none

/-- Format C (R91): `arg[3:2]` must be 0, `arg[1:0]` is `ch`, 3 is illegal. -/
def decodeC (f : Channel → Instr) (arg : BitVec 4) : Except DecodeError Instr :=
  if arg.extractLsb' 2 2 = 0#2 then
    match channelOfCode (arg.extractLsb' 0 2) with
    | some ch => .ok (f ch)
    | none => .error .illegalChannel
  else .error .mustBeZero

/-- R91: bank 0 is the sample registers, bank 1 the average registers. -/
def bankOfBit (b : Bool) : Bank := if b then .AV else .S

/-- Format E (R91): `arg[3]` must be 0, `arg[2]` is `bank`, `arg[1:0]` is `kind`. -/
def decodeE (f : Nat → Bank → Instr) (arg : BitVec 4) : Except DecodeError Instr :=
  if arg.getLsbD 3 then .error .mustBeZero
  else .ok (f (arg.extractLsb' 0 2).toNat (bankOfBit (arg.getLsbD 2)))

/-- Format W (R91): `arg[3:1]` must be 0, `arg[0]` is `sel`, 0 retry, 1 cycle. -/
def decodeW (arg : BitVec 4) : Except DecodeError Instr :=
  if arg.extractLsb' 1 3 = 0#3 then .ok (if arg.getLsbD 0 then .waitCycle else .waitRetry)
  else .error .mustBeZero

/-- The operation map R92 with the illegal words (a) to (c) of R93, whoever issues the word. -/
def decode (w : Byte) : Except DecodeError Instr :=
  match (opField w).toNat with
  | 0x0 => decodeZ .nop (argField w)
  | 0x1 => decodeZ .tsdDecode (argField w)
  | 0x2 => decodeZ .fppParse (argField w)
  | 0x3 => decodeZ .fppCmd (argField w)
  | 0x4 => decodeC .raaPush (argField w)
  | 0x5 => decodeC .raaAvg (argField w)
  | 0x6 => decodeZ .raaAdv (argField w)
  | 0x7 => decodeE .peEncode (argField w)
  | 0x8 => decodeZ .indBand (argField w)
  | 0x9 => decodeZ .auxSample (argField w)
  | 0xA => decodeZ .fppRead (argField w)
  | 0xB => decodeZ .rotStep (argField w)
  | 0xC => decodeW (argField w)
  | _ => .error .reservedOp

/-- `decode` with case (d) of R93: `ROT.STEP` is legal from ROT only. -/
def decodeFrom (issuer : Issuer) (w : Byte) : Except DecodeError Instr :=
  match decode w with
  | .error e => .error e
  | .ok i => if i = .rotStep ∧ issuer ≠ .rot then .error .notFromRot else .ok i

/-- R94: the code of a channel. -/
def channelCode : Channel → BitVec 2
  | .A => 0
  | .B => 1
  | .X => 2

/-- R91: the bit of a bank. -/
def bankBit : Bank → BitVec 1
  | .S => 0
  | .AV => 1

/-- The command word of an operation (R92). -/
def encode : Instr → Byte
  | .nop => 0x00
  | .tsdDecode => 0x10
  | .fppParse => 0x20
  | .fppCmd => 0x30
  | .raaPush ch => (0x4#4) ++ ((0#2) ++ channelCode ch : BitVec 4)
  | .raaAvg ch => (0x5#4) ++ ((0#2) ++ channelCode ch : BitVec 4)
  | .raaAdv => 0x60
  | .peEncode kind bank => (0x7#4) ++ ((0#1) ++ (bankBit bank ++ BitVec.ofNat 2 kind : BitVec 3) : BitVec 4)
  | .indBand => 0x80
  | .auxSample => 0x90
  | .fppRead => 0xA0
  | .rotStep => 0xB0
  | .waitRetry => 0xC0
  | .waitCycle => 0xC1

/-- One row of spec/opcode_table.json: a word `w` belongs to it when `w &&& mask = pattern`. -/
structure OpcodeRow where
  pattern : Byte
  mask : Byte
  deriving DecidableEq, Repr

/-- The row of the opcode table that an operation belongs to (its `match` and `mask`). -/
def opcodeRow : Instr → OpcodeRow
  | .nop => ⟨0x00, 0xFF⟩
  | .tsdDecode => ⟨0x10, 0xFF⟩
  | .fppParse => ⟨0x20, 0xFF⟩
  | .fppCmd => ⟨0x30, 0xFF⟩
  | .raaPush _ => ⟨0x40, 0xFC⟩
  | .raaAvg _ => ⟨0x50, 0xFC⟩
  | .raaAdv => ⟨0x60, 0xFF⟩
  | .peEncode _ _ => ⟨0x70, 0xF8⟩
  | .indBand => ⟨0x80, 0xFF⟩
  | .auxSample => ⟨0x90, 0xFF⟩
  | .fppRead => ⟨0xA0, 0xFF⟩
  | .rotStep => ⟨0xB0, 0xFF⟩
  | .waitRetry => ⟨0xC0, 0xFF⟩
  | .waitCycle => ⟨0xC1, 0xFF⟩

/-- The operation that the decoder reads from the table word `w` of `nbits` bits: every word of this hardware is one
byte (R90), so any other length, or a bit above bit 7, is no instruction. -/
def decodeTableWord (nbits w : Nat) : Option Instr :=
  if nbits = 8 ∧ w < 256 then
    match decode (BitVec.ofNat 8 w) with
    | .ok i => some i
    | .error _ => none
  else none

end Sys2Proof
end

