-- ==== Sys2Proof/Config.lean ====
section
/-! DEFINITION. What an implementation fixes: the constants of 00_scope.md R5, the open parameters of R6 and the free
inputs of R7, R8, R37 and R39. An `opaque` constant has no value that a proof can see. -/

namespace Sys2Proof

/-- A three-channel intensity command (10_state.md R48). -/
structure Rgb where
  r : Byte
  g : Byte
  b : Byte
  deriving DecidableEq, Repr, Inhabited

/-- The answer of `HostRead` (R43): a finite byte string of any length, or `TransportError`. -/
inductive ReadAnswer where
  | bytes (bs : List Byte)
  | transportError
  deriving DecidableEq, Repr, Inhabited

/-- The answer of `HostWrite` (R44): the number of bytes taken, or `TransportError`. -/
inductive WriteAnswer where
  | count (n : Nat)
  | transportError
  deriving DecidableEq, Repr, Inhabited

/-- What happens next (R8, R70, R300): a step of the ORC side (the sequencer, or in direct mode the host's next command
word), a step of ROT, or an external reset that samples the strap `run`. -/
inductive Turn where
  | orc
  | rot
  | reset (run : Bool)
  deriving DecidableEq, Repr, Inhabited

/-- The open parameters of R6 but for the strap `RUN`: fixed before reset (R302), carried beside the state as plain data
so that a statement about every state is a statement about every value of them (DESIGN CHOICE, log entry 1: safe). -/
structure Params where
  /-- `HDR[0..5]`: the slot header. -/
  hdr : Vector Byte 6
  /-- `PCNT_BIG_ENDIAN`: the byte order of the particle counts in a record. -/
  pcntBigEndian : Bool
  /-- `T_CYCLE`: the cycle period in scheduling time-units. -/
  tCycle : Nat
  /-- `RXCAP`: the capacity of the receive buffer; R6 asks `RXCAP ≥ 32`. -/
  rxcap : Nat
  /-- `BAND_RGB[0..5]`: the colours of the six bands. -/
  bandRgb : Vector Rgb 6
  deriving DecidableEq, Repr

/-! ### Constants of R5 -/

/-- `N`: capacity of each history window. -/
def Config.windowN : Nat := 10
/-- `NUM_SLOTS`. -/
def Config.numSlots : Nat := 2
/-- `T_START_LOW`: duration of the start pulse. -/
def Config.startLow : Nat := 8600
/-- `T_THRESH`: a high pulse longer than this is a 1. -/
def Config.bitThreshold : Nat := 46
/-- `T_TIMEOUT`: a wait longer than this is a timeout. -/
def Config.waitTimeout : Nat := 260
/-- `SYNC0`. -/
def Config.sync0 : Byte := 0x42
/-- `SYNC1`. -/
def Config.sync1 : Byte := 0x4D
/-- `FRAME_SUMMED`: bytes covered by the frame checksum. -/
def Config.frameSummed : Nat := 30
/-- `CMD_LEN`: bytes of a command frame. -/
def Config.cmdLen : Nat := 7
/-- `MAX_ATTEMPTS`. -/
def Config.maxAttempts : Nat := 60
/-- `RETRY_DELAY`. -/
def Config.retryDelay : Nat := 2000
/-- `SLOT_DELAY`. -/
def Config.slotDelay : Nat := 100
/-- `T25[0..4]`. -/
def Config.t25 : List Nat := [13, 35, 55, 75, 110]
/-- `T100[0..4]`. -/
def Config.t100 : List Nat := [20, 50, 80, 110, 150]

/-! ### The open parameters of R6 at reset (log entries 1 and 2: safe, no proof sees their values) -/

/-- `HDR` (D20). -/
opaque Config.hdr : Vector Byte 6
/-- `PCNT_BIG_ENDIAN` (D19). -/
opaque Config.pcntBigEndian : Bool
/-- `T_CYCLE` (D26). -/
opaque Config.tCycle : Nat
/-- `RXCAP − 32` (D11). -/
opaque Config.rxcapAbove32 : Nat
/-- `BAND_RGB` (D29). -/
opaque Config.bandRgb : Vector Rgb 6
/-- The strap `RUN` at the reset that starts the machine (R37, D4). -/
opaque Config.runStrap : Bool

/-- The machine's open parameters. -/
def Config.params : Params where
  hdr := Config.hdr
  pcntBigEndian := Config.pcntBigEndian
  tCycle := Config.tCycle
  rxcap := 32 + Config.rxcapAbove32
  bandRgb := Config.bandRgb

/-! ### Free inputs (R7, R8, R39, R68; log entries 3 to 5: safe). Each but the first turns is applied to a counter that
every free draw advances, so each draw is a fresh value that nothing constrains. -/

/-- A free answer of `HostPulseWait` (R42). -/
opaque Config.freePulse : Nat → Nat
/-- A free answer of `HostRead` (R43). -/
opaque Config.freeRead : Nat → ReadAnswer
/-- A free answer of `HostWrite` (R44). -/
opaque Config.freeWrite : Nat → WriteAnswer
/-- A free answer of `HostAux` (R45). -/
opaque Config.freeAux : Nat → Byte
/-- The turns to come at reset (R8, R70, R300). -/
opaque Config.firstTurns : List Turn
/-- A free finite run of turns before a turn that is owed to ROT (R8, R326). -/
opaque Config.turnsBeforeRot : Nat → List Turn
/-- A free finite run of turns after a turn that is owed to ROT (R8, R326). -/
opaque Config.turnsAfterRot : Nat → List Turn
/-- A free command word of the host (R39). -/
opaque Config.freeCommand : Nat → Byte

end Sys2Proof
end

