-- ==== Sys2Proof/Machine/State.lean ====
section
/-! DEFINITION. The state of CORE as plain data: every register and memory of 10_state.md R20 to R38 and R50 to R52, the
event history R49, the open parameters R6 and the host's inputs to come; the state after reset (R54, R300). -/

namespace Sys2Proof.Machine

/-- The level a wait looks at (R42). -/
inductive Level where
  | high
  | low
  deriving DecidableEq, Repr

/-- The agent that asks for a delay (R46). -/
inductive DelayAgent where
  | orc
  | rot
  deriving DecidableEq, Repr

/-- The status codes of R96; 9 to 14 are never produced and have no constructor. Their numbers are `Status.code`. -/
inductive Status where
  | ok
  | timeoutStart
  | timeoutRecv
  | checksum
  | frameNotFound
  | incompleteFrame
  | invalidSlot
  | emptyWindow
  | transport
  | illegalOp
  deriving DecidableEq, Repr

/-- A sample A (R14, R20): `temp` is the pattern of an `int16`, `hum` a `uint16`. -/
structure SampleA where
  temp : U16
  hum : U16
  deriving DecidableEq, Repr

/-- A sample B (R14, R21): twelve `uint16`, in the order of the field index `f`. -/
structure SampleB where
  smPm10 : U16
  smPm25 : U16
  smPm100 : U16
  aePm10 : U16
  aePm25 : U16
  aePm100 : U16
  pc0 : U16
  pc1 : U16
  pc2 : U16
  pc3 : U16
  pc4 : U16
  pc5 : U16
  deriving DecidableEq, Repr

/-- A broadcast slot (R50): bytes 0 to 5 are the header, bytes 6 to 30 the record. -/
structure Slot where
  header : Vector Byte 6
  record : Vector Byte 25
  deriving DecidableEq, Repr

/-- A byte array in canonical form: indices strictly rising, no entry equal to what an unlisted index reads as. Ops.lean
has its operations and says what an unlisted index reads as. -/
abbrev Memory := List Host.Cell

/-- The states of the ORC sequencer (R27). -/
inductive OrcPc where
  | idle
  | p0 | p1 | p2 | p3 | p4 | p5 | p6 | p7 | p8 | p9 | p10 | p11 | p12 | p13 | p14 | p15 | p16
  | halt
  deriving DecidableEq, Repr

/-- An event of the history (R40 to R49, R12). -/
inductive Event where
  /-- `LineLow(d)` (R40). -/
  | lineLow (d : Nat)
  /-- `LineRelease` (R41). -/
  | lineRelease
  /-- `PulseWait(level, d)` (R42). -/
  | pulseWait (level : Level) (d : Nat)
  /-- `Read(result)` (R43). -/
  | read (result : ReadAnswer)
  /-- `Write(bytes, result)` (R44). -/
  | write (bytes : List Byte) (result : WriteAnswer)
  /-- `Aux(v)` (R45). -/
  | aux (v : Byte)
  /-- `Delay(agent, n)` (R46). -/
  | delay (agent : DelayAgent) (n : Nat)
  /-- `Advertise(s, bytes)` (R47). -/
  | advertise (s : Fin 2) (bytes : List Byte)
  /-- `Indicator(band, r, g, b)` (R48). -/
  | indicator (band : Fin 6) (r g b : Byte)
  /-- `Report(op, status)` (R12, R274): `op` is the command word issued. -/
  | report (op : Byte) (status : Status)
  deriving DecidableEq, Repr

/-- The host's inputs and the turns to come, oldest first. These are the MODEL's own fields: where a queue is empty the
input is a free draw of Config.lean at the counter `draws`, which every free draw advances (log entries 3 to 5: safe). -/
structure Inputs where
  /-- What happens next (R8, R70, R300). -/
  turns : List Turn
  /-- The command words that the host offers on the command port (R39). -/
  cmds : List Byte
  /-- The answers of `HostPulseWait` (R42). -/
  pulses : List Nat
  /-- The answers of `HostRead` (R43). -/
  reads : List ReadAnswer
  /-- The answers of `HostWrite` (R44). -/
  writes : List WriteAnswer
  /-- The answers of `HostAux` (R45). -/
  auxs : List Byte
  /-- How many free draws have been made. -/
  draws : Nat
  deriving DecidableEq, Repr

/-- The machine. A register with a legal range smaller than its width has the type of that range (10_state.md section 4
allows it; log entry 8). -/
structure State where
  /-- `SA` (R20). -/
  sa : SampleA
  /-- `SB` (R21). -/
  sb : SampleB
  /-- `SX` (R22). -/
  sx : Byte
  /-- `AVA` (R23). -/
  ava : SampleA
  /-- `AVB` (R24). -/
  avb : SampleB
  /-- `AVX` (R25). -/
  avx : Byte
  /-- `CMDOP` (R26). -/
  cmdOp : Byte
  /-- `CMDARG` (R26). -/
  cmdArg : U16
  /-- `ORC_PC` (R27). -/
  orcPc : OrcPc
  /-- `STATUS` (R28). -/
  status : Status
  /-- `FATAL` (R29). -/
  fatal : Bool
  /-- `FATAL_CODE` (R29). -/
  fatalCode : Status
  /-- `OFF` (R30). -/
  off : Fin 10
  /-- `ROT_IDX` (R31). -/
  rotIdx : Fin 2
  /-- `CNT_A` (R32). -/
  cntA : Fin 11
  /-- `CNT_B` (R32). -/
  cntB : Fin 11
  /-- `CNT_X` (R32). -/
  cntX : Fin 11
  /-- `ATT` (R33). -/
  att : Fin 61
  /-- `NFAIL` (R34). -/
  nfail : Fin 128
  /-- `RXLEN` (R35). -/
  rxLen : Nat
  /-- `BAND` (R36). -/
  band : Fin 6
  /-- `RUN` (R37). -/
  run : Bool
  /-- `HIST_A` (R38). -/
  histA : Vector SampleA 10
  /-- `HIST_B` (R38). -/
  histB : Vector SampleB 10
  /-- `HIST_X` (R38). -/
  histX : Vector Byte 10
  /-- `SLOT` (R50). -/
  slots : Vector Slot 2
  /-- `RXBUF` (R51). -/
  rxBuf : Memory
  /-- `TXBUF` (R52). -/
  txBuf : Vector Byte 7
  /-- `EV` (R49), oldest first. -/
  ev : List Event
  /-- The open parameters (R6, R302); no step writes them. -/
  cfg : Params
  /-- The host's inputs to come (the model's own). -/
  host : Inputs
  deriving DecidableEq, Repr

/-- Why the machine stops. -/
inductive Fault where
  /-- Raised by the sequencer alone, where a step in `P2` or `P5` begins with `ATT = 60`: R245 makes `ATT` 61 there, which
  R33 does not allow and for which R245 has no row. SAFE: the model stops where the spec says nothing, and no state that a
  run reaches is such a state (log entry 9). -/
  | sixtyFirstAttempt
  deriving DecidableEq, Repr

/-- Why a step has no meaning. -/
inductive Refusal where
  /-- Raised by an arm of `exec` whose instruction has no meaning yet; no arm does. SAFE. -/
  | notModelled (mnemonic : String)
  deriving DecidableEq, Repr

/-- A sample A of zeros. -/
def SampleA.zero : SampleA := ⟨0, 0⟩

/-- A sample B of zeros. -/
def SampleB.zero : SampleB := ⟨0, 0, 0, 0, 0, 0, 0, 0, 0, 0, 0, 0⟩

/-- The record of 25 zero bytes that reset leaves in a slot (R50, R71c). -/
def zeroRecord : Vector Byte 25 := Vector.replicate 25 0

/-- No input given: every input to come is a free draw, and the first turns are a free finite list. -/
def Inputs.free : Inputs where
  turns := Config.firstTurns
  cmds := []
  pulses := []
  reads := []
  writes := []
  auxs := []
  draws := 0

/-- What reset leaves (R54, R300), for the open parameters `cfg`, the strap `run` and the inputs `host` still to come. -/
def State.afterReset (cfg : Params) (run : Bool) (host : Inputs) : State where
  sa := SampleA.zero
  sb := SampleB.zero
  sx := 0
  ava := SampleA.zero
  avb := SampleB.zero
  avx := 0
  cmdOp := 0
  cmdArg := 0
  orcPc := if run then .p0 else .idle
  status := .ok
  fatal := false
  fatalCode := .ok
  off := 0
  rotIdx := 0
  cntA := 0
  cntB := 0
  cntX := 0
  att := 0
  nfail := 0
  rxLen := 0
  band := 0
  run := run
  histA := Vector.replicate 10 SampleA.zero
  histB := Vector.replicate 10 SampleB.zero
  histX := Vector.replicate 10 0
  slots := Vector.replicate 2 ⟨cfg.hdr, zeroRecord⟩
  rxBuf := []
  txBuf := Vector.replicate 7 0
  ev := []
  cfg := cfg
  host := host

/-- The machine right after reset: the strap and the parameters are those of Config.lean, which no proof sees, and no
input is given yet (log entries 1 to 5 and 7). -/
def State.reset : State := State.afterReset Config.params Config.runStrap Inputs.free

end Sys2Proof.Machine
end

