-- ==== Sys2Proof/Machine/Flags.lean ====
section
/-! DEFINITION. The status codes and the sticky `FATAL` flag (30_encoding.md R96, 60_exceptions.md R274, R280). -/

namespace Sys2Proof.Machine

/-- The 4-bit code of a status (R96). -/
def Status.code : Status → BitVec 4
  | .ok => 0
  | .timeoutStart => 1
  | .timeoutRecv => 2
  | .checksum => 3
  | .frameNotFound => 4
  | .incompleteFrame => 5
  | .invalidSlot => 6
  | .emptyWindow => 7
  | .transport => 8
  | .illegalOp => 15

/-- The fatal class (R280): `INVALID_SLOT`, `EMPTY_WINDOW`, `ILLEGAL_OP`. -/
def Status.isFatal : Status → Bool
  | .ok => false
  | .timeoutStart => false
  | .timeoutRecv => false
  | .checksum => false
  | .frameNotFound => false
  | .incompleteFrame => false
  | .invalidSlot => true
  | .emptyWindow => true
  | .transport => false
  | .illegalOp => true

/-- `FATAL` after a raise (R274): set by the fatal class, never cleared. -/
def fatalAfter (st : Status) (fatal : Bool) : Bool := fatal || st.isFatal

/-- `FATAL_CODE` after a raise (R29, R274): written when `FATAL` goes from 0 to 1, kept otherwise. -/
def fatalCodeAfter (st : Status) (fatal : Bool) (code : Status) : Status :=
  if st.isFatal && !fatal then st else code

/-- The response port (R39b): the current values of `STATUS`, `FATAL` and `FATAL_CODE`. -/
def responsePort (s : State) : BitVec 4 × Bool × BitVec 4 := (s.status.code, s.fatal, s.fatalCode.code)

end Sys2Proof.Machine
end

