-- ==== Sys2Proof/Machine/Ops.lean ====
section
/-! DEFINITION. The shared operations: byte arrays in canonical form, the host primitives of 10_state.md R40 to R48 with
their free inputs, completion with `OK`, TAKING AN EXCEPTION (`raise`, 00_scope.md R12, 60_exceptions.md R274), and
external reset (R300). There is no return from an exception: R275 says that no return instruction exists. -/

namespace Sys2Proof.Machine

/-! ### Byte arrays -/

/-- What an index that the list does not name reads as: the reset value 0 (R51). -/
def Memory.unlisted : Byte := 0

/-- Element `a` of a byte array. -/
def Memory.read : Memory → Nat → Byte
  | [], _ => Memory.unlisted
  | (k, v) :: rest, a => if k = a then v else Memory.read rest a

/-- Put `(a, v)` before `m`, unless an unlisted index reads as `v` anyway. -/
def Memory.consCell (a : Nat) (v : Byte) (m : Memory) : Memory :=
  if v = Memory.unlisted then m else (a, v) :: m

/-- Write `v` to element `a`, keeping the canonical form. -/
def Memory.write : Memory → Nat → Byte → Memory
  | [], a, v => Memory.consCell a v []
  | (k, w) :: rest, a, v =>
    if a < k then Memory.consCell a v ((k, w) :: rest)
    else if a = k then Memory.consCell a v rest
    else (k, w) :: Memory.write rest a v

/-- Write the bytes `bs` to the elements from `a` on. -/
def Memory.writeBytes (m : Memory) (a : Nat) : List Byte → Memory
  | [] => m
  | b :: bs => Memory.writeBytes (m.write a b) (a + 1) bs

/-- The `n` elements from `a` on. -/
def Memory.readBytes (m : Memory) (a n : Nat) : List Byte := (List.range n).map fun j => m.read (a + j)

/-- Every index of the list is above `lo`, strictly rising, and no entry is what an unlisted index reads as. -/
def Memory.wfAbove (lo : Nat) : Memory → Bool
  | [] => true
  | (k, v) :: rest => decide (lo ≤ k) && decide (v ≠ Memory.unlisted) && Memory.wfAbove (k + 1) rest

/-- The canonical form. -/
def Memory.wf (m : Memory) : Bool := m.wfAbove 0

/-! ### Events, completion, exceptions -/

/-- Append events to the history (R49). -/
def emit (es : List Event) (s : State) : State := { s with ev := s.ev ++ es }

/-- An operation that reaches the end of its pseudocode: `STATUS <- OK` (R12). -/
def complete (s : State) : State := { s with status := .ok }

/-- `raise st` in the operation with command word `op` (R12, R274): `STATUS`, then `FATAL` and `FATAL_CODE` for the fatal
class, then the event `Report(op, st)`; nothing else. -/
def raise (op : Byte) (st : Status) (s : State) : State :=
  { s with
    status := st
    fatal := fatalAfter st s.fatal
    fatalCode := fatalCodeAfter st s.fatal s.fatalCode
    ev := s.ev ++ [.report op st] }

/-! ### Free inputs: the head of the queue, or a fresh free draw (R7, R68) -/

/-- The next answer of `HostPulseWait` (R42). -/
def Inputs.drawPulse (h : Inputs) : Nat × Inputs :=
  match h.pulses with
  | d :: rest => (d, { h with pulses := rest })
  | [] => (Config.freePulse h.draws, { h with draws := h.draws + 1 })

/-- The next answer of `HostRead` (R43). -/
def Inputs.drawRead (h : Inputs) : ReadAnswer × Inputs :=
  match h.reads with
  | r :: rest => (r, { h with reads := rest })
  | [] => (Config.freeRead h.draws, { h with draws := h.draws + 1 })

/-- The next answer of `HostWrite` (R44). -/
def Inputs.drawWrite (h : Inputs) : WriteAnswer × Inputs :=
  match h.writes with
  | r :: rest => (r, { h with writes := rest })
  | [] => (Config.freeWrite h.draws, { h with draws := h.draws + 1 })

/-- The next answer of `HostAux` (R45). -/
def Inputs.drawAux (h : Inputs) : Byte × Inputs :=
  match h.auxs with
  | v :: rest => (v, { h with auxs := rest })
  | [] => (Config.freeAux h.draws, { h with draws := h.draws + 1 })

/-- What happens next (R8, R70, R300). Where the queue is empty it is filled again with a free finite run of turns that
has a turn of ROT in it, and if the sequencer can step (`ready`) the turn is its own. So no agent that can step is passed
over for ever: the weak fairness of R8 and R326, and every weakly fair order is some choice of the free runs (log entry
4). -/
def Inputs.drawTurn (ready : Bool) (h : Inputs) : Turn × Inputs :=
  match h.turns with
  | t :: rest => (t, { h with turns := rest })
  | [] =>
    if ready then
      (.orc, { h with
        turns := Config.turnsBeforeRot h.draws ++ .rot :: Config.turnsAfterRot h.draws, draws := h.draws + 1 })
    else
      match Config.turnsBeforeRot h.draws with
      | [] => (.rot, { h with turns := Config.turnsAfterRot h.draws, draws := h.draws + 1 })
      | t :: rest => (t, { h with turns := rest ++ .rot :: Config.turnsAfterRot h.draws, draws := h.draws + 1 })

/-- The next command word that the host offers (R39). -/
def Inputs.drawCommand (h : Inputs) : Byte × Inputs :=
  match h.cmds with
  | w :: rest => (w, { h with cmds := rest })
  | [] => (Config.freeCommand h.draws, { h with draws := h.draws + 1 })

/-! ### Host primitives (`HostPulseWait` stands in Tsd.lean, with the loop that calls it) -/

/-- `HostLineLow(d)` (R40). -/
def hostLineLow (d : Nat) (s : State) : State := emit [.lineLow d] s

/-- `HostLineRelease()` (R41). -/
def hostLineRelease (s : State) : State := emit [.lineRelease] s

/-- `HostRead()` (R43). -/
def hostRead (s : State) : ReadAnswer × State :=
  let d := s.host.drawRead
  (d.1, emit [.read d.1] { s with host := d.2 })

/-- `HostWrite(bytes)` (R44). -/
def hostWrite (bytes : List Byte) (s : State) : WriteAnswer × State :=
  let d := s.host.drawWrite
  (d.1, emit [.write bytes d.1] { s with host := d.2 })

/-- `HostAux()` (R45). -/
def hostAux (s : State) : Byte × State :=
  let d := s.host.drawAux
  (d.1, emit [.aux d.1] { s with host := d.2 })

/-- `HostDelay(n)` (R46): the model has no time (R9), so the event is its only effect. -/
def hostDelay (agent : DelayAgent) (n : Nat) (s : State) : State := emit [.delay agent n] s

/-- `HostAdvertise(k, bytes)` (R47). -/
def hostAdvertise (k : Fin 2) (bytes : List Byte) (s : State) : State := emit [.advertise k bytes] s

/-- `HostIndicator(band, r, g, b)` (R48). -/
def hostIndicator (band : Fin 6) (c : Rgb) (s : State) : State := emit [.indicator band c.r c.g c.b] s

/-! ### Reset -/

/-- External reset with the strap at `run` (R300), taken between steps: nothing of CORE survives; the open parameters
(R302) and the host's own inputs to come are not CORE's (log entry 6). -/
def takeReset (run : Bool) (s : State) : State := State.afterReset s.cfg run s.host

end Sys2Proof.Machine
end

