-- ==== Sys2Proof/Machine/Operands.lean ====
section
/-! DEFINITION. The operand forms: bytes of a 16-bit number (20_memory.md R60), the fields of a sample B by index
(10_state.md R21), the bytes of a slot (R50), the registers that a bank names (30_encoding.md R91, R104). -/

namespace Sys2Proof.Machine

/-- The 16-bit number of a high and a low byte, `(hi << 8) | lo` (R60). -/
def be16 (hi lo : Byte) : U16 := hi ++ lo

/-- `v[15:8]`. -/
def hiByte (v : U16) : Byte := v.extractLsb' 8 8

/-- `v[7:0]`. -/
def loByte (v : U16) : Byte := v.extractLsb' 0 8

/-- Byte `i` of a list of bytes, for an index that the caller has checked (20_memory.md R64). -/
def byteAt (bs : List Byte) (i : Nat) : Byte := bs.getD i 0

/-- `SB.field[f]` (R21). -/
def SampleB.field (b : SampleB) : Fin 12 → U16
  | 0 => b.smPm10
  | 1 => b.smPm25
  | 2 => b.smPm100
  | 3 => b.aePm10
  | 4 => b.aePm25
  | 5 => b.aePm100
  | 6 => b.pc0
  | 7 => b.pc1
  | 8 => b.pc2
  | 9 => b.pc3
  | 10 => b.pc4
  | 11 => b.pc5

/-- The sample B whose field `f` is `g f` (R21). -/
def SampleB.ofFields (g : Fin 12 → U16) : SampleB where
  smPm10 := g 0
  smPm25 := g 1
  smPm100 := g 2
  aePm10 := g 3
  aePm25 := g 4
  aePm100 := g 5
  pc0 := g 6
  pc1 := g 7
  pc2 := g 8
  pc3 := g 9
  pc4 := g 10
  pc5 := g 11

/-- The 31 bytes of a slot, `SLOT[s][0..30]` (R50): the header, then the record. -/
def Slot.bytes (slot : Slot) : List Byte := slot.header.toList ++ slot.record.toList

/-- `SLOT[k]` (R50). -/
def State.slot (s : State) (k : Fin 2) : Slot := s.slots[k]

/-- `SLOT[k][6..30] <- rec`, all 25 bytes in one action; the header is not written (44_pe.md R206). -/
def State.writeRecord (s : State) (k : Fin 2) (rec : Vector Byte 25) : State :=
  { s with slots := s.slots.set k { s.slot k with record := rec } }

/-- The sample-A register that `bank` picks: `SA` or `AVA` (R204). -/
def State.bankA (s : State) : Bank → SampleA
  | .S => s.sa
  | .AV => s.ava

/-- The sample-B register that `bank` picks: `SB` or `AVB` (R204). -/
def State.bankB (s : State) : Bank → SampleB
  | .S => s.sb
  | .AV => s.avb

/-- `CNT_c` (R32). -/
def State.cnt (s : State) : Channel → Fin 11
  | .A => s.cntA
  | .B => s.cntB
  | .X => s.cntX

end Sys2Proof.Machine
end

