-- ==== Sys2Proof/Machine/Fpp.lean ====
section
/-! DEFINITION. FPP, the frame synchronizer: `FPP.READ`, `FPP.PARSE`, `FPP.CMD` (42_fpp.md). -/

namespace Sys2Proof.Machine

/-! ### FPP.READ -/

/-- `FPP.READ` (R150): at most `RXCAP` bytes are kept; the elements behind them keep their values; on `TransportError`
`RXLEN` is cleared before the raise. -/
def fppRead (s : State) : State :=
  let a := hostRead s
  match a.1 with
  | .transportError => raise (encode .fppRead) .transport { a.2 with rxLen := 0 }
  | .bytes r =>
    let kept := r.take s.cfg.rxcap
    complete { a.2 with rxBuf := a.2.rxBuf.writeBytes 0 kept, rxLen := kept.length }

/-- The meaning of `FPP.READ`. -/
def execFppRead (s : State) : Host.Outcome State Fault Refusal := .next (fppRead s)

/-! ### FPP.PARSE -/

/-- `fpp_scan` (R156): the least `i` with `i + 1 < len`, `buf[i] = 0x42` and `buf[i+1] = 0x4D`. -/
def fppScan : List Byte → Option Nat
  | b0 :: b1 :: rest =>
    if b0 = Config.sync0 ∧ b1 = Config.sync1 then some 0
    else (fppScan (b1 :: rest)).map (· + 1)
  | _ => none

/-- The sum of the 30 bytes from `i` on, modulo 65536 (R157). -/
def fppSum (buf : List Byte) (i : Nat) : Nat :=
  ((List.range Config.frameSummed).map fun j => (byteAt buf (i + j)).toNat).sum % 65536

/-- `fpp_check` (R157): the sum equals the big-endian number behind the 30 bytes. -/
def fppCheck (buf : List Byte) (i : Nat) : Bool :=
  fppSum buf i == (be16 (byteAt buf (i + 30)) (byteAt buf (i + 31))).toNat

/-- `fpp_field` (R158). -/
def fppField (buf : List Byte) (i : Nat) (f : Fin 12) : U16 :=
  be16 (byteAt buf (i + 4 + 2 * f.val)) (byteAt buf (i + 5 + 2 * f.val))

/-- The source's `parse(buffer)` (R155, R163): the sample, or the status that the operation raises. -/
def fppParseBuffer (buf : List Byte) : Except Status SampleB :=
  match fppScan buf with
  | none => .error .frameNotFound
  | some i =>
    if i + 31 < buf.length then
      if fppCheck buf i then .ok (SampleB.ofFields (fppField buf i)) else .error .checksum
    else .error .incompleteFrame

/-- `RXBUF[0..RXLEN−1]`, the valid bytes of the receive buffer (R51, R160). -/
def State.rxValid (s : State) : List Byte := s.rxBuf.readBytes 0 s.rxLen

/-- `FPP.PARSE` (R155, R159). -/
def fppParse (s : State) : State :=
  match fppParseBuffer s.rxValid with
  | .error st => raise (encode .fppParse) st s
  | .ok b => complete { s with sb := b }

/-- The meaning of `FPP.PARSE`. -/
def execFppParse (s : State) : Host.Outcome State Fault Refusal := .next (fppParse s)

/-! ### FPP.CMD -/

/-- The checksum of a command frame: the sum of its first five bytes (R165). -/
def fppCmdSum (op : Byte) (arg : U16) : U16 :=
  BitVec.ofNat 16
    (Config.sync0.toNat + Config.sync1.toNat + op.toNat + (hiByte arg).toNat + (loByte arg).toNat)

/-- The command frame (R102, R165). -/
def fppCmdFrame (op : Byte) (arg : U16) : Vector Byte 7 :=
  #v[Config.sync0, Config.sync1, op, hiByte arg, loByte arg,
     hiByte (fppCmdSum op arg), loByte (fppCmdSum op arg)]

/-- `FPP.CMD` (R165): `TXBUF` keeps the frame even where the write fails. -/
def fppCmd (s : State) : State :=
  let frame := fppCmdFrame s.cmdOp s.cmdArg
  let a := hostWrite frame.toList { s with txBuf := frame }
  if a.1 = .count Config.cmdLen then complete a.2 else raise (encode .fppCmd) .transport a.2

/-- The meaning of `FPP.CMD`. -/
def execFppCmd (s : State) : Host.Outcome State Fault Refusal := .next (fppCmd s)

end Sys2Proof.Machine
end

