-- ==== Sys2Proof/Machine/Orc.lean ====
section
/-! DEFINITION. The small operations of the orchestrator: `NOP`, `WAIT.RETRY`, `WAIT.CYCLE`, `IND.BAND`
(45_orc.md sections 1 and 2). -/

namespace Sys2Proof.Machine

/-- The meaning of `NOP` (R230): `STATUS <- OK` and nothing else. -/
def execNop (s : State) : Host.Outcome State Fault Refusal := .next (complete s)

/-- `min(NFAIL + 1, 127)` (R34, R232). -/
def bumpNfail (n : Fin 128) : Fin 128 := ⟨min (n.val + 1) 127, by omega⟩

/-- `WAIT.RETRY` (R232). -/
def waitRetry (s : State) : State :=
  let s1 := hostDelay .orc Config.retryDelay s
  complete { s1 with nfail := bumpNfail s1.nfail }

/-- The meaning of `WAIT.RETRY`. -/
def execWaitRetry (s : State) : Host.Outcome State Fault Refusal := .next (waitRetry s)

/-- What is left of the cycle period, `max(0, T_CYCLE − 2000 × NFAIL)` (R233); subtraction of natural numbers stops
at 0. -/
def cycleRest (s : State) : Nat := s.cfg.tCycle - Config.retryDelay * s.nfail.val

/-- `WAIT.CYCLE` (R233). -/
def waitCycle (s : State) : State :=
  let s1 := hostDelay .orc (cycleRest s) s
  complete { s1 with nfail := 0 }

/-- The meaning of `WAIT.CYCLE`. -/
def execWaitCycle (s : State) : Host.Outcome State Fault Refusal := .next (waitCycle s)

/-- `band(v, T)` (R237): how many thresholds `v` is above; a value equal to a threshold is not above it (R238). -/
def bandOf (v : U16) (thresholds : List Nat) : Nat := thresholds.countP fun t => decide (v.toNat > t)

/-- The greater of the two bands (R236, R237); each list has five thresholds, so the band is at most 5. -/
def bandOfPair (pm25 pm100 : U16) : Fin 6 :=
  ⟨min (max (bandOf pm25 Config.t25) (bandOf pm100 Config.t100)) 5, by omega⟩

/-- The band that `IND.BAND` writes (R236, R239): the highest where no sensor-B sample has been pushed. -/
def newBand (s : State) : Fin 6 := if s.cntB = 0 then 5 else bandOfPair s.avb.aePm25 s.avb.aePm100

/-- `IND.BAND` (R236). -/
def indBand (s : State) : State :=
  let k := newBand s
  complete (hostIndicator k s.cfg.bandRgb[k] { s with band := k })

/-- The meaning of `IND.BAND`. -/
def execIndBand (s : State) : Host.Outcome State Fault Refusal := .next (indBand s)

end Sys2Proof.Machine
end

