-- ==== Sys2Proof/Machine/Pe.lean ====
section
/-! DEFINITION. PE and ROT, the payload encoder and the slot rotation: `PE.ENCODE`, `ROT.STEP` (44_pe.md). -/

namespace Sys2Proof.Machine

/-- The magnitude of the temperature field (R201, R207): the absolute value without wrap, clamped to 0x7FF
(90_conflicts.md C2). -/
def tempMagnitude (t : U16) : Nat := min t.toInt.natAbs 0x7FF

/-- `T12` (R201): sign in bit 11, magnitude in bits 10..0. -/
def tempField (t : U16) : BitVec 12 := BitVec.ofBool (decide (t.toInt < 0)) ++ BitVec.ofNat 11 (tempMagnitude t)

/-- `H10` (R201, R208): the low ten bits of the humidity. -/
def humField (h : U16) : BitVec 10 := h.extractLsb' 0 10

/-- The 24-bit word `W` (R201): kind, temperature field, humidity field. -/
def packHead (a : SampleA) (kind : Nat) : BitVec 24 :=
  BitVec.ofNat 2 kind ++ (tempField a.temp ++ humField a.hum : BitVec 22)

/-- First byte of a concentration pair (R202): `hi >> 4`. -/
def pairHigh (hi : U16) : Byte := hi.extractLsb' 4 8

/-- Middle byte of a concentration pair (R202): `((hi << 4) | (lo >> 8)) & 0xFF`, taken literally for wide values. -/
def pairMiddle (hi lo : U16) : Byte := (hi <<< 4 ||| lo >>> 8).extractLsb' 0 8

/-- First byte of a particle count (R203). -/
def countFirst (bigEndian : Bool) (v : U16) : Byte := if bigEndian then hiByte v else loByte v

/-- Second byte of a particle count (R203). -/
def countSecond (bigEndian : Bool) (v : U16) : Byte := if bigEndian then loByte v else hiByte v

/-- `pe_pack(a, b, x, kind)` (R200 to R203), for `PCNT_BIG_ENDIAN` = `e`. -/
def pePack (e : Bool) (a : SampleA) (b : SampleB) (x : Byte) (kind : Nat) : Vector Byte 25 :=
  #v[(packHead a kind).extractLsb' 16 8, (packHead a kind).extractLsb' 8 8, (packHead a kind).extractLsb' 0 8,
     pairHigh b.smPm10, pairMiddle b.smPm10 b.smPm25, loByte b.smPm25,
     pairHigh b.smPm100, pairMiddle b.smPm100 b.aePm10, loByte b.aePm10,
     pairHigh b.aePm25, pairMiddle b.aePm25 b.aePm100, loByte b.aePm100,
     countFirst e b.pc0, countSecond e b.pc0, countFirst e b.pc1, countSecond e b.pc1,
     countFirst e b.pc2, countSecond e b.pc2, countFirst e b.pc3, countSecond e b.pc3,
     countFirst e b.pc4, countSecond e b.pc4, countFirst e b.pc5, countSecond e b.pc5,
     x]

/-- `PE.ENCODE kind, bank` (R204): the record goes to `SLOT[kind]`; `AVX` is the scalar of both banks (R205). -/
def peEncode (kind : Nat) (bank : Bank) (s : State) : State :=
  if h : kind < Config.numSlots then
    complete (s.writeRecord ⟨kind, h⟩ (pePack s.cfg.pcntBigEndian (s.bankA bank) (s.bankB bank) s.avx kind))
  else raise (encode (.peEncode kind bank)) .invalidSlot s

/-- The meaning of `PE.ENCODE`. -/
def execPeEncode (kind : Nat) (bank : Bank) (s : State) : Host.Outcome State Fault Refusal :=
  .next (peEncode kind bank s)

/-! ### The inverse (R209); no operation uses it -/

/-- The word `W` of a record. -/
def unpackHead (rec : Vector Byte 25) : BitVec 24 := rec[0] ++ (rec[1] ++ rec[2] : BitVec 16)

/-- A particle count of two record bytes. -/
def unpackCount (bigEndian : Bool) (first second : Byte) : U16 :=
  if bigEndian then be16 first second else be16 second first

/-- The first value of a pair: `(first << 4) | (middle >> 4)`. -/
def unpackPairHi (first middle : Byte) : U16 := (0#4) ++ (first ++ middle.extractLsb' 4 4 : BitVec 12)

/-- The second value of a pair: `((middle & 0x0F) << 8) | last`. -/
def unpackPairLo (middle last : Byte) : U16 := (0#4) ++ (middle.extractLsb' 0 4 ++ last : BitVec 12)

/-- The kind tag of a record, `W[23:22]`. -/
def unpackKind (rec : Vector Byte 25) : Nat := ((unpackHead rec).extractLsb' 22 2).toNat

/-- The temperature of a record: `T12 = W[21:10]`, sign in bit 11. -/
def unpackTemp (rec : Vector Byte 25) : Int :=
  let t12 := (unpackHead rec).extractLsb' 10 12
  if t12.getLsbD 11 then -((t12.extractLsb' 0 11).toNat : Int) else (t12.extractLsb' 0 11).toNat

/-- The sample A of a record. -/
def unpackA (rec : Vector Byte 25) : SampleA where
  temp := BitVec.ofInt 16 (unpackTemp rec)
  hum := ((unpackHead rec).extractLsb' 0 10).setWidth 16

/-- The sample B of a record. -/
def unpackB (e : Bool) (rec : Vector Byte 25) : SampleB where
  smPm10 := unpackPairHi rec[3] rec[4]
  smPm25 := unpackPairLo rec[4] rec[5]
  smPm100 := unpackPairHi rec[6] rec[7]
  aePm10 := unpackPairLo rec[7] rec[8]
  aePm25 := unpackPairHi rec[9] rec[10]
  aePm100 := unpackPairLo rec[10] rec[11]
  pc0 := unpackCount e rec[12] rec[13]
  pc1 := unpackCount e rec[14] rec[15]
  pc2 := unpackCount e rec[16] rec[17]
  pc3 := unpackCount e rec[18] rec[19]
  pc4 := unpackCount e rec[20] rec[21]
  pc5 := unpackCount e rec[22] rec[23]

/-- What `pe_unpack` reads back: `(kind, a, b, x)`. -/
structure Unpacked where
  kind : Nat
  a : SampleA
  b : SampleB
  x : Byte
  deriving DecidableEq, Repr

/-- `pe_unpack(rec)` (R209). -/
def peUnpack (e : Bool) (rec : Vector Byte 25) : Unpacked where
  kind := unpackKind rec
  a := unpackA rec
  b := unpackB e rec
  x := rec[24]

/-! ### ROT.STEP -/

/-- `(ROT_IDX + 1) mod 2` (R31, R215). -/
def nextRotIdx (k : Fin 2) : Fin 2 := ⟨(k.val + 1) % 2, by omega⟩

/-- `ROT.STEP` (R215): hands the slot over as one read of 31 bytes, then asks for the delay; it does not write
`STATUS`. -/
def rotStep (s : State) : State :=
  let s1 := hostAdvertise s.rotIdx (s.slot s.rotIdx).bytes s
  let s2 := hostDelay .rot Config.slotDelay s1
  { s2 with rotIdx := nextRotIdx s.rotIdx }

/-- The meaning of `ROT.STEP`. -/
def execRotStep (s : State) : Host.Outcome State Fault Refusal := .next (rotStep s)

end Sys2Proof.Machine
end

