-- ==== Sys2Proof/Machine/Raa.lean ====
section
/-! DEFINITION. RAA, the rolling-average aggregator: `AUX.SAMPLE`, `RAA.PUSH`, `RAA.AVG`, `RAA.ADV` (43_raa.md). -/

namespace Sys2Proof.Machine

/-- `AUX.SAMPLE` (R180). -/
def auxSample (s : State) : State :=
  let a := hostAux s
  complete { a.2 with sx := a.1 }

/-- The meaning of `AUX.SAMPLE`. -/
def execAuxSample (s : State) : Host.Outcome State Fault Refusal := .next (auxSample s)

/-- `min(CNT + 1, 10)` (R32, R184). -/
def bumpCnt (c : Fin 11) : Fin 11 := ⟨min (c.val + 1) 10, by omega⟩

/-- `RAA.PUSH ch` (R184): the channel's sample register goes to the window at `OFF`, which does not move. -/
def raaPush (ch : Channel) (s : State) : State :=
  match ch with
  | .A => complete { s with histA := s.histA.set s.off s.sa, cntA := bumpCnt s.cntA }
  | .B => complete { s with histB := s.histB.set s.off s.sb, cntB := bumpCnt s.cntB }
  | .X => complete { s with histX := s.histX.set s.off s.sx, cntX := bumpCnt s.cntX }

/-- The meaning of `RAA.PUSH`. -/
def execRaaPush (ch : Channel) (s : State) : Host.Outcome State Fault Refusal := .next (raaPush ch s)

/-- The mean of unsigned numbers (R189): the exact sum, then the integer quotient. -/
def floorMeanNat (xs : List Nat) (m : Nat) : Nat := xs.sum / m

/-- The mean of signed numbers (R189): the exact sum, then the quotient toward minus infinity. -/
def floorMeanInt (xs : List Int) (m : Nat) : Int := Int.fdiv xs.sum m

/-- The mean of the samples A with array indices 0 to `m − 1`, field by field (R188, R190). -/
def meanA (h : Vector SampleA 10) (m : Nat) : SampleA where
  temp := BitVec.ofInt 16 (floorMeanInt ((h.toList.take m).map fun a => a.temp.toInt) m)
  hum := BitVec.ofNat 16 (floorMeanNat ((h.toList.take m).map fun a => a.hum.toNat) m)

/-- The mean of the samples B with array indices 0 to `m − 1`, field by field (R188, R190). -/
def meanB (h : Vector SampleB 10) (m : Nat) : SampleB :=
  SampleB.ofFields fun f => BitVec.ofNat 16 (floorMeanNat ((h.toList.take m).map fun b => (b.field f).toNat) m)

/-- The mean of the scalars with array indices 0 to `m − 1` (R188, R190). -/
def meanX (h : Vector Byte 10) (m : Nat) : Byte :=
  BitVec.ofNat 8 (floorMeanNat ((h.toList.take m).map fun x => x.toNat) m)

/-- How many elements `RAA.AVG` sums: `min(CNT, 10)` (R188). -/
def windowCount (c : Fin 11) : Nat := min c.val Config.windowN

/-- The write of `RAA.AVG ch` on a window that is not empty (R188). -/
def writeMean (ch : Channel) (s : State) : State :=
  match ch with
  | .A => { s with ava := meanA s.histA (windowCount s.cntA) }
  | .B => { s with avb := meanB s.histB (windowCount s.cntB) }
  | .X => { s with avx := meanX s.histX (windowCount s.cntX) }

/-- `RAA.AVG ch` (R188). -/
def raaAvg (ch : Channel) (s : State) : State :=
  if s.cnt ch = 0 then raise (encode (.raaAvg ch)) .emptyWindow s
  else complete (writeMean ch s)

/-- The meaning of `RAA.AVG`. -/
def execRaaAvg (ch : Channel) (s : State) : Host.Outcome State Fault Refusal := .next (raaAvg ch s)

/-- `(OFF + 1) mod 10` (R30, R192). -/
def nextOff (o : Fin 10) : Fin 10 := ⟨(o.val + 1) % 10, by omega⟩

/-- `RAA.ADV` (R192). -/
def raaAdv (s : State) : State := complete { s with off := nextOff s.off }

/-- The meaning of `RAA.ADV`. -/
def execRaaAdv (s : State) : Host.Outcome State Fault Refusal := .next (raaAdv s)

end Sys2Proof.Machine
end

