-- ==== Sys2Proof/Machine/Tsd.lean ====
section
/-! DEFINITION. TSD, the single-wire pulse-width decoder: `TSD.DECODE` (41_tsd.md). -/

namespace Sys2Proof.Machine

/-- The 82 waits of a transaction in order, each with the status that its timeout raises (R130, R131, R138): high, low,
then forty times low, high. -/
def tsdPlan : List (Level × Status) :=
  [(.high, .timeoutStart), (.low, .timeoutStart)] ++
    (List.replicate 40 [(Level.low, Status.timeoutRecv), (Level.high, Status.timeoutRecv)]).flatten

/-- What a sequence of waits gives: the durations or the status of the first timeout, the events appended, and the inputs
left. -/
structure Waits where
  result : Except Status (List Nat)
  events : List Event
  inputs : Inputs

/-- Make the waits of a plan in order (R131, R132): each is one `HostPulseWait`; the first that reports more than 260 ends
the sequence, and the later waits are not made. -/
def tsdWaits : List (Level × Status) → Inputs → Waits
  | [], h => ⟨.ok [], [], h⟩
  | (level, phase) :: rest, h =>
    let d := h.drawPulse
    if d.1 > Config.waitTimeout then ⟨.error phase, [.pulseWait level d.1], d.2⟩
    else
      let r := tsdWaits rest d.2
      ⟨r.result.map (d.1 :: ·), .pulseWait level d.1 :: r.events, r.inputs⟩

/-- `tsd_bit(dh)` (R133): strictly above the threshold is a 1 (90_conflicts.md C1). -/
def tsdBit (dh : Nat) : Bool := decide (dh > Config.bitThreshold)

/-- The forty bits: bit `n` is the high part `w[3 + 2n]` (R131). -/
def tsdBits (w : List Nat) : List Bool := (List.range 40).map fun n => tsdBit (w.getD (3 + 2 * n) 0)

/-- Byte `j` of the forty bits (R134): the first bit received is its most significant one. -/
def tsdByte (bits : List Bool) (j : Nat) : Byte :=
  BitVec.ofNat 8 ((List.range 8).map fun k => (bits.getD (8 * j + k) false).toNat * 2 ^ (7 - k)).sum

/-- The five bytes of a transaction. -/
structure TsdBytes where
  b0 : Byte
  b1 : Byte
  b2 : Byte
  b3 : Byte
  b4 : Byte
  deriving DecidableEq, Repr

/-- `tsd_bytes` (R134). -/
def tsdBytes (bits : List Bool) : TsdBytes where
  b0 := tsdByte bits 0
  b1 := tsdByte bits 1
  b2 := tsdByte bits 2
  b3 := tsdByte bits 3
  b4 := tsdByte bits 4

/-- `tsd_check` (R135): byte 4 is the sum of the other four modulo 256. -/
def tsdCheck (b : TsdBytes) : Bool :=
  b.b4.toNat == (b.b0.toNat + b.b1.toNat + b.b2.toNat + b.b3.toNat) % 256

/-- The temperature of `tsd_unpack` (R136): sign in bit 7 of byte 2, magnitude in its low seven bits and byte 3. -/
def tsdTemp (b : TsdBytes) : Int :=
  let mag := (b.b2.extractLsb' 0 7 ++ b.b3).toNat
  if b.b2.getLsbD 7 then -(mag : Int) else mag

/-- `tsd_unpack` (R136). -/
def tsdUnpack (b : TsdBytes) : SampleA where
  temp := BitVec.ofInt 16 (tsdTemp b)
  hum := be16 b.b0 b.b1

/-- The end of `TSD.DECODE` when no wait timed out, for the durations `w` (R131, R137). -/
def tsdFinish (w : List Nat) (s : State) : State :=
  let b := tsdBytes (tsdBits w)
  if tsdCheck b then complete { s with sa := tsdUnpack b }
  else raise (encode .tsdDecode) .checksum s

/-- `TSD.DECODE` (R131). -/
def tsdDecode (s : State) : State :=
  let s1 := hostLineRelease (hostLineLow Config.startLow s)
  let r := tsdWaits tsdPlan s1.host
  let s2 := emit r.events { s1 with host := r.inputs }
  match r.result with
  | .error phase => raise (encode .tsdDecode) phase s2
  | .ok w => tsdFinish w s2

/-- The meaning of `TSD.DECODE`. -/
def execTsdDecode (s : State) : Host.Outcome State Fault Refusal := .next (tsdDecode s)

end Sys2Proof.Machine
end

