-- ==== Sys2Proof/Machine/Dispatch.lean ====
section
/-! DEFINITION. One arm per operation of 30_encoding.md R92. -/

namespace Sys2Proof.Machine

def exec (i : Instr) (s : State) : Host.Outcome State Fault Refusal :=
  match i with
  | .nop => Sys2Proof.Machine.execNop s
  | .tsdDecode => Sys2Proof.Machine.execTsdDecode s
  | .fppParse => Sys2Proof.Machine.execFppParse s
  | .fppCmd => Sys2Proof.Machine.execFppCmd s
  | .raaPush ch => Sys2Proof.Machine.execRaaPush ch s
  | .raaAvg ch => Sys2Proof.Machine.execRaaAvg ch s
  | .raaAdv => Sys2Proof.Machine.execRaaAdv s
  | .peEncode kind bank => Sys2Proof.Machine.execPeEncode kind bank s
  | .indBand => Sys2Proof.Machine.execIndBand s
  | .auxSample => Sys2Proof.Machine.execAuxSample s
  | .fppRead => Sys2Proof.Machine.execFppRead s
  | .rotStep => Sys2Proof.Machine.execRotStep s
  | .waitRetry => Sys2Proof.Machine.execWaitRetry s
  | .waitCycle => Sys2Proof.Machine.execWaitCycle s

end Sys2Proof.Machine
end

