-- ==== Sys2Proof/Machine/Sequencer.lean ====
section
/-! DEFINITION. The agents: issuing a command word (30_encoding.md R90, R93), the ORC program (45_orc.md R245), the
command port of direct mode (10_state.md R39), the rotation loop (44_pe.md R216), external reset, and the choice of what
happens next (00_scope.md R8). Step.lean calls `agentStep`. -/

namespace Sys2Proof.Machine

/-! ### Issuing a word -/

/-- Decode the word that `issuer` puts forward and execute it to completion; an illegal word raises `ILLEGAL_OP` and does
nothing else (R93, R276). -/
def issue (issuer : Issuer) (w : Byte) (s : State) : Host.Outcome State Fault Refusal :=
  match decodeFrom issuer w with
  | .ok i => exec i s
  | .error _ => .next (raise w .illegalOp s)

/-! ### The ORC program, R245 -/

/-- The word that the sequencer issues in its state, if the state is one of `P0` to `P16` (R245); `P11` and `P12` issue
`NOP` in place of an average over an empty window (R251). -/
def orcWord (s : State) : Option Byte :=
  match s.orcPc with
  | .idle => none
  | .p0 => some 0x90
  | .p1 => some 0x42
  | .p2 => some 0x10
  | .p3 => some 0x40
  | .p4 => some 0xC0
  | .p5 => some 0xA0
  | .p6 => some 0x20
  | .p7 => some 0x41
  | .p8 => some 0xC0
  | .p9 => some 0x52
  | .p10 => some 0x70
  | .p11 => some (if s.cntA > 0 then 0x50 else 0x00)
  | .p12 => some (if s.cntB > 0 then 0x51 else 0x00)
  | .p13 => some 0x75
  | .p14 => some 0x80
  | .p15 => some 0x60
  | .p16 => some 0xC1
  | .halt => none

/-- `ATT` after the increment of the row (R245): one more in `P2` and `P5`, else unchanged; `none` where it would be 61,
which R33 does not allow. -/
def attAfterRow (pc : OrcPc) (att : Fin 61) : Option (Fin 61) :=
  if pc = .p2 ∨ pc = .p5 then
    if h : att.val + 1 < 61 then some ⟨att.val + 1, h⟩ else none
  else some att

/-- The next state of the row (R245), for the outcome of the operation and the incremented `ATT`. `IDLE` and `HALT` have
no successor (R27); the sequencer takes no step there. -/
def orcNext (pc : OrcPc) (ok : Bool) (att : Fin 61) : OrcPc :=
  match pc with
  | .idle => .idle
  | .p0 => .p1
  | .p1 => .p2
  | .p2 => if ok then .p3 else if att.val < Config.maxAttempts then .p4 else .p5
  | .p3 => .p5
  | .p4 => .p2
  | .p5 => if ok then .p6 else if att.val < Config.maxAttempts then .p8 else .p9
  | .p6 => if ok then .p7 else if att.val < Config.maxAttempts then .p8 else .p9
  | .p7 => .p9
  | .p8 => .p5
  | .p9 => .p10
  | .p10 => .p11
  | .p11 => .p12
  | .p12 => .p13
  | .p13 => .p14
  | .p14 => .p15
  | .p15 => .p16
  | .p16 => .p0
  | .halt => .halt

/-- `ATT` at the end of the row (R245, R33): 0 on the steps from `P1` to `P2`, `P2` to `P5` and `P3` to `P5`. -/
def attAtEnd (pc next : OrcPc) (att : Fin 61) : Fin 61 :=
  if pc = .p1 ∨ pc = .p3 ∨ (pc = .p2 ∧ next = .p5) then 0 else att

/-- Parts (2) and (3) of a sequencer step (R245), for the state `t` in which the operation completed. -/
def sequence (pc : OrcPc) (att : Fin 61) (t : State) : State :=
  let next := orcNext pc (t.status == .ok) att
  { t with
    att := attAtEnd pc next att
    orcPc := if t.fatal then .halt else next }

/-- Apply `f` to the next state of an outcome. -/
def mapNext (f : State → State) : Host.Outcome State Fault Refusal → Host.Outcome State Fault Refusal
  | .next s => .next (f s)
  | .fault r => .fault r
  | .refused r => .refused r

/-- One step of ROT: one `ROT.STEP` (R215, R216). -/
def rotTurn (s : State) : Host.Outcome State Fault Refusal := issue .rot 0xB0 s

/-- One step of the sequencer (R245). In `IDLE` and `HALT` ORC takes no step, and ROT, which always can, takes the turn
(log entry 4). -/
def orcTurn (s : State) : Host.Outcome State Fault Refusal :=
  match orcWord s with
  | none => rotTurn s
  | some w =>
    match attAfterRow s.orcPc s.att with
    | none => .fault .sixtyFirstAttempt
    | some att => mapNext (sequence s.orcPc att) (issue .orc w s)

/-- One step of direct mode: the host's next word on the command port is accepted and executed (R39, R249). -/
def hostTurn (s : State) : Host.Outcome State Fault Refusal :=
  let d := s.host.drawCommand
  issue .host d.1 { s with host := d.2 }

/-- Take the turn `t` (R8, R39, R249, R300). -/
def takeTurn (t : Turn) (s : State) : Host.Outcome State Fault Refusal :=
  match t with
  | .reset run => .next (takeReset run s)
  | .rot => rotTurn s
  | .orc =>
    match s.run with
    | true => orcTurn s
    | false => hostTurn s

/-- The sequencer can take a step: run mode, in a state that has a row (R245). -/
def sequencerReady (s : State) : Bool := s.run && (orcWord s).isSome

/-- One step: the next turn is drawn, then taken. -/
def agentStep (s : State) : Host.Outcome State Fault Refusal :=
  let d := s.host.drawTurn (sequencerReady s)
  takeTurn d.1 { s with host := d.2 }

/-! ### Placing a word (log entry 7) -/

/-- `s` about to execute the word `w` in its very next step: `ROT.STEP`, which ROT alone may issue (R93), as ROT's next
step; any other word on the command port of direct mode, whose turn it is. -/
def placeWord (w : Byte) (s : State) : State :=
  if w = 0xB0 then { s with host := { s.host with turns := .rot :: s.host.turns } }
  else
    { s with
      run := false
      orcPc := .idle
      host := { s.host with turns := .orc :: s.host.turns, cmds := w :: s.host.cmds } }

end Sys2Proof.Machine
end

