-- ==== Sys2Proof/Machine/Step.lean ====
section
/-! DEFINITION. The step of the whole machine, and the state whose next step runs a given word. -/

namespace Sys2Proof.Machine

/-- One step: one turn of the ORC side, of ROT, or a reset (00_scope.md R8, 70_reset_and_hazards.md R300). -/
def step (s : State) : Host.Outcome State Fault Refusal := agentStep s

/-- `s` with the one-byte instruction `w` placed so that the very next step runs it. -/
def State.withFetchWord (s : State) (_nbits w : Nat) : State := placeWord (BitVec.ofNat 8 w) s

end Sys2Proof.Machine
end

