-- ==== Sys2Proof/Safety.lean ====
section
/-! DEFINITION. What counts as a safe state and a safe run, in the terms the statements use: the invariants of the
registers (10_state.md section 4), of run mode (45_orc.md R252, R254), of the slots and the rotation (44_pe.md R216,
R217), the bound on a cycle's steps, and what the next turn and the next host answers are. -/

namespace Sys2Proof.Machine

/-! ### Turns and answers -/

/-- What the next step does (R8, R70, R300). -/
def turnOf (s : State) : Turn := (s.host.drawTurn (sequencerReady s)).1

/-- The state once the turn has been drawn: all of CORE as it was. -/
def afterTurn (s : State) : State := { s with host := (s.host.drawTurn (sequencerReady s)).2 }

/-- The next `n` answers of `HostPulseWait`, in order, and the inputs left after them (R42). -/
def drawPulses : Nat → Inputs → List Nat × Inputs
  | 0, h => ([], h)
  | n + 1, h =>
    let d := h.drawPulse
    let r := drawPulses n d.2
    (d.1 :: r.1, r.2)

/-- The level that wait `w[j]` of a sensor-A transaction looks at (R100, R131). -/
def levelOfWait (j : Nat) : Level :=
  if j = 0 then .high else if j = 1 then .low else if j % 2 = 0 then .low else .high

/-- The events of the first `n` waits of a transaction whose durations are `w`. -/
def pulseEvents (w : List Nat) (n : Nat) : List Event :=
  (List.range n).map fun j => .pulseWait (levelOfWait j) (w.getD j 0)

/-- The sensor-B buffer holds the sync marker at `i`, and `i + 1` is a valid index (R156). -/
def markerAt (s : State) (i : Nat) : Prop :=
  i + 1 < s.rxLen ∧ s.rxBuf.read i = 0x42 ∧ s.rxBuf.read (i + 1) = 0x4D

/-- `i` is the first sync marker of the valid bytes (R156, R161). -/
def firstMarkerAt (s : State) (i : Nat) : Prop := markerAt s i ∧ ∀ j < i, ¬ markerAt s j

/-- Byte `j` that the durations `w` of a complete transaction spell (R133, R134). -/
def pulseByte (w : List Nat) (j : Nat) : Nat :=
  ((List.range 8).map fun k => if w.getD (3 + 2 * (8 * j + k)) 0 > 46 then 2 ^ (7 - k) else 0).sum

/-- `s` with other command words offered on the command port (R39). -/
def withCmds (cs : List Byte) (s : State) : State := { s with host := { s.host with cmds := cs } }

/-- The word that the next step issues on a turn of the ORC side: the sequencer's in run mode, the host's in direct mode
(R90). -/
def nextWord (s : State) : Option Byte :=
  match s.run with
  | true => orcWord s
  | false => some (afterTurn s).host.drawCommand.1

/-- The next step executes `PE.ENCODE k, bank` (R204). -/
def encodesNow (s : State) (k : Fin 2) (bank : Bank) : Prop :=
  turnOf s = .orc ∧ ∃ w, nextWord s = some w ∧ decode w = .ok (.peEncode k.val bank)

/-- The record that `PE.ENCODE k, bank` packs in the state `s` (R204). -/
def packedNow (s : State) (k : Fin 2) (bank : Bank) : Vector Byte 25 :=
  pePack s.cfg.pcntBigEndian (s.bankA bank) (s.bankB bank) s.avx k.val

/-! ### The numbers of the spec's formulas -/

/-- `q` is the quotient, toward minus infinity, of the sum of `xs` by `m` (R10, R189). -/
def isFloorMean (q : Int) (xs : List Int) (m : Nat) : Prop := q * m ≤ xs.sum ∧ xs.sum < (q + 1) * m

/-- The 24-bit number `W` of a record (R201, R207, R208). -/
def headNumber (a : SampleA) (kind : Nat) : Nat :=
  kind * 2 ^ 22 + ((if a.temp.toInt < 0 then 1 else 0) * 2 ^ 11 + min a.temp.toInt.natAbs 2047) * 2 ^ 10 +
    a.hum.toNat % 1024

/-- Three record bytes hold a concentration pair (R202). -/
def packedPair (r0 r1 r2 : Byte) (hi lo : U16) : Prop :=
  r0.toNat = hi.toNat / 16 % 256 ∧ r1.toNat = (hi.toNat * 16 ||| lo.toNat / 256) % 256 ∧ r2.toNat = lo.toNat % 256

/-- Two record bytes hold a particle count (R203). -/
def packedCount (bigEndian : Bool) (r0 r1 : Byte) (v : U16) : Prop :=
  if bigEndian then r0.toNat = v.toNat / 256 ∧ r1.toNat = v.toNat % 256
  else r0.toNat = v.toNat % 256 ∧ r1.toNat = v.toNat / 256

/-! ### A row of the ORC program -/

/-- The step from `s` issues the operation `i`, sets `ATT` to `att ok` and goes to `next ok`, where `ok` says whether the
operation completed with `OK`; with `FATAL = 1` it goes to `HALT` (R245). -/
def followsRow (s : State) (i : Instr) (att : Bool → Nat) (next : Bool → OrcPc) : Prop :=
  ∃ t a, exec i (afterTurn s) = .next t ∧ a.val = att (t.status == .ok) ∧
    step s = .next { t with att := a, orcPc := if t.fatal then .halt else next (t.status == .ok) }

/-! ### The table of statuses, 60_exceptions.md R271 -/

/-- The statuses that an operation may complete with (R271); `ROT.STEP` writes none. -/
def allowedStatuses : Instr → List Status
  | .nop => [.ok]
  | .tsdDecode => [.ok, .timeoutStart, .timeoutRecv, .checksum]
  | .fppRead => [.ok, .transport]
  | .fppParse => [.ok, .checksum, .frameNotFound, .incompleteFrame]
  | .fppCmd => [.ok, .transport]
  | .raaPush _ => [.ok]
  | .raaAvg _ => [.ok, .emptyWindow]
  | .raaAdv => [.ok]
  | .peEncode _ _ => [.ok, .invalidSlot]
  | .indBand => [.ok]
  | .auxSample => [.ok]
  | .waitRetry => [.ok]
  | .waitCycle => [.ok]
  | .rotStep => []

/-! ### The invariant of the machine -/

/-- `RXCAP` is at least 32 (R6), the receive buffer is canonical, and no index of it, nor `RXLEN`, is beyond `RXCAP`
(R35, R51, R64). -/
abbrev memoryOk (s : State) : Prop :=
  32 ≤ s.cfg.rxcap ∧ s.rxBuf.wf = true ∧ (∀ c ∈ s.rxBuf, c.1 < s.cfg.rxcap) ∧ s.rxLen ≤ s.cfg.rxcap

/-- Both slot headers are `HDR` (R50, R206). -/
abbrev headersOk (s : State) : Prop := ∀ k : Fin 2, (s.slot k).header = s.cfg.hdr

/-- `ORC_PC = IDLE` exactly when `RUN = 0` (R249). -/
abbrev modeOk (s : State) : Prop := s.orcPc = .idle ↔ s.run = false

/-- `FATAL` and `FATAL_CODE` belong together (R29). -/
abbrev fatalOk (s : State) : Prop :=
  s.fatal = s.fatalCode.isFatal ∧ (s.fatal = false → s.fatalCode = .ok)

/-- While neither sensor's push of the cycle has been made, a push of channel `c` would keep `CNT_c ≤ CNT_X`. -/
abbrev pushFits (c x : Fin 11) : Prop := min (c.val + 1) 10 ≤ x.val

/-- What holds in each state of the sequencer (R33, R34, R252, R254 d and f). -/
def seqOk (s : State) : Prop :=
  match s.orcPc with
  | .idle => False
  | .p0 => s.nfail = 0 ∧ s.cntA ≤ s.cntX ∧ s.cntB ≤ s.cntX ∧ s.status = .ok
  | .p1 => s.nfail = 0 ∧ s.cntA ≤ s.cntX ∧ s.cntB ≤ s.cntX
  | .p2 => s.nfail.val = s.att.val ∧ s.att.val < 60 ∧ 0 < s.cntX ∧ pushFits s.cntA s.cntX ∧ pushFits s.cntB s.cntX
  | .p3 => s.nfail.val + 1 = s.att.val ∧ 0 < s.cntX ∧ pushFits s.cntA s.cntX ∧ pushFits s.cntB s.cntX
  | .p4 =>
    s.nfail.val + 1 = s.att.val ∧ s.att.val < 60 ∧ 0 < s.cntX ∧ pushFits s.cntA s.cntX ∧ pushFits s.cntB s.cntX
  | .p5 => s.nfail.val ≤ 59 + s.att.val ∧ s.att.val < 60 ∧ 0 < s.cntX ∧ s.cntA ≤ s.cntX ∧ pushFits s.cntB s.cntX
  | .p6 => s.nfail.val + 1 ≤ 59 + s.att.val ∧ 0 < s.att ∧ 0 < s.cntX ∧ s.cntA ≤ s.cntX ∧ pushFits s.cntB s.cntX
  | .p7 => s.nfail.val + 1 ≤ 59 + s.att.val ∧ 0 < s.att ∧ 0 < s.cntX ∧ s.cntA ≤ s.cntX ∧ pushFits s.cntB s.cntX
  | .p8 =>
    s.nfail.val + 1 ≤ 59 + s.att.val ∧ 0 < s.att ∧ s.att.val < 60 ∧ 0 < s.cntX ∧ s.cntA ≤ s.cntX ∧
      pushFits s.cntB s.cntX
  | .p9 | .p10 | .p11 | .p12 | .p13 | .p14 | .p15 | .p16 =>
    s.nfail.val ≤ 118 ∧ 0 < s.cntX ∧ s.cntA ≤ s.cntX ∧ s.cntB ≤ s.cntX
  | .halt => False

/-- Run mode never becomes fatal, and its sequencer registers stay in the bounds of the retry policy (R252, R254). -/
def runOk (s : State) : Prop := s.run = true → s.fatal = false ∧ s.status.isFatal = false ∧ seqOk s

/-- The invariant of the machine. -/
structure Inv (s : State) : Prop where
  memory : memoryOk s
  headers : headersOk s
  mode : modeOk s
  fatal : fatalOk s
  runMode : runOk s

/-! ### Slots and rotation -/

/-- A record that slot `k` may hold: the reset record, or the packing of some sample A, sample B and scalar under the tag
`k` (R66, R217 c). -/
def wholeRecord (cfg : Params) (k : Fin 2) (rec : Vector Byte 25) : Prop :=
  rec = zeroRecord ∨ ∃ a b x, rec = pePack cfg.pcntBigEndian a b x k.val

/-- Every event `Advertise(k, bytes)` carries the header `HDR` and one whole record of slot `k` (R66, R217). -/
def advertsOk (s : State) : Prop :=
  ∀ k bytes, Event.advertise k bytes ∈ s.ev →
    ∃ rec, bytes = s.cfg.hdr.toList ++ rec.toList ∧ wholeRecord s.cfg k rec

/-- Both slots hold the header and a whole record, and so did every slot handed over so far. -/
structure BroadcastOk (s : State) : Prop where
  headers : headersOk s
  records : ∀ k, wholeRecord s.cfg k (s.slot k).record
  adverts : advertsOk s

/-- The slot indices of the `Advertise` events, oldest first. -/
def advertised (es : List Event) : List (Fin 2) :=
  es.filterMap fun e => match e with
    | .advertise k _ => some k
    | _ => none

/-- `n mod 2` as a slot index. -/
def slotParity (n : Nat) : Fin 2 := ⟨n % 2, by omega⟩

/-- The `Advertise` events name the slots 0, 1, 0, 1, … and `ROT_IDX` is the next of them (R216). -/
def rotationOk (s : State) : Prop :=
  advertised s.ev = (List.range (advertised s.ev).length).map slotParity ∧
    s.rotIdx = slotParity (advertised s.ev).length

/-! ### Cycles of run mode -/

/-- How many cycles have begun since reset: each begins with one `Aux` event (R245, row `P0`). -/
def cyclesBegun (es : List Event) : Nat :=
  es.countP fun e => match e with
    | .aux _ => true
    | _ => false

/-- `OFF` and `CNT_X` follow the number `t` of cycles begun, state by state of the sequencer (R193 b and c, R254 c). -/
def cycleOk (s : State) : Prop :=
  s.run = true →
    let t := cyclesBegun s.ev
    match s.orcPc with
    | .idle => True
    | .p0 => s.off.val = t % 10 ∧ s.cntX.val = min t 10
    | .p1 => 0 < t ∧ s.off.val = (t - 1) % 10 ∧ s.cntX.val = min (t - 1) 10
    | .p16 => s.off.val = t % 10 ∧ s.cntX.val = min t 10
    | .halt => True
    | _ => 0 < t ∧ s.off.val = (t - 1) % 10 ∧ s.cntX.val = min t 10

/-- A bound on the sequencer steps that are left of the cycle, from a state of the program and `ATT` (R254 b): 310 at
`P0`. -/
def cycleStepsLeft (pc : OrcPc) (att : Nat) : Nat :=
  match pc with
  | .idle => 0
  | .p0 => 310
  | .p1 => 309
  | .p2 => 2 * (60 - att) + 188
  | .p3 => 189
  | .p4 => 2 * (60 - att) + 189
  | .p5 => 3 * (60 - att) + 8
  | .p6 => 3 * (61 - att) + 7
  | .p7 => 9
  | .p8 => 3 * (60 - att) + 9
  | .p9 => 8
  | .p10 => 7
  | .p11 => 6
  | .p12 => 5
  | .p13 => 4
  | .p14 => 3
  | .p15 => 2
  | .p16 => 1
  | .halt => 0

end Sys2Proof.Machine
end

