-- ==== Sys2Proof/Certificates/Slice0/Obligations.lean ====
section
/-! DEFINITION. The statements for the provers. Each docstring names the rule of spec/ it formalises; a statement that
rests on a choice of the model names the log entry. -/

open Sys2Proof Sys2Proof.Machine

/-! ### Encoding (30_encoding.md) -/

/-- Section 1: the decoder reads every well-formed operation back from the word that the encoder gives it. That ROT's
words are decoded as anyone's are is the model's choice (log entry 18); ROT issues 0xB0 only. -/
def Obligations.DecodeOfEncodeIsIdentity : Prop :=
  ∀ i : Instr, i.wellFormed = true → decode (encode i) = .ok i ∧ decodeFrom .rot (encode i) = .ok i ∧
    (i ≠ .rotStep → decodeFrom .orc (encode i) = .ok i ∧ decodeFrom .host (encode i) = .ok i)

/-- Section 1: a word has one meaning; the encoder gives back the word that was decoded. -/
def Obligations.EncodeOfDecodeIsIdentity : Prop :=
  ∀ (w : Byte) (i : Instr), decode w = .ok i → encode i = w ∧ i.wellFormed = true

/-- R93: which words are illegal, and the complete list of the legal ones. Which case of R93 a word is rejected under where
more than one holds (0x47, 0x4B, 0x4F, 0x57, 0x5B and 0x5F are named `mustBeZero`), and that ROT's words are decoded as
anyone's are, are the model's choices (log entry 18). -/
def Obligations.LegalWordsAreTheListed : Prop :=
  (∀ w : Byte, ((∃ i, decodeFrom .host w = .ok i) ↔ w.toNat ∈ [0x00, 0x10, 0x20, 0x30, 0x40, 0x41, 0x42, 0x50, 0x51,
      0x52, 0x60, 0x70, 0x71, 0x72, 0x73, 0x74, 0x75, 0x76, 0x77, 0x80, 0x90, 0xA0, 0xC0, 0xC1])) ∧
  (∀ w : Byte, decodeFrom .orc w = decodeFrom .host w) ∧
  (∀ w : Byte, (∃ i, decodeFrom .rot w = .ok i) ↔ ((∃ i, decodeFrom .host w = .ok i) ∨ w = 0xB0)) ∧
  (∀ w : Byte, decodeFrom .host w = .error .reservedOp ↔ 0xD ≤ w.toNat / 16) ∧
  (∀ w : Byte, decodeFrom .host w = .error .illegalChannel ↔ w = 0x43 ∨ w = 0x53) ∧
  (∀ w : Byte, decodeFrom .host w = .error .notFromRot ↔ w = 0xB0) ∧
  (∀ (bank : Bank) (kind : Nat), kind < 4 → ∃ w, decodeFrom .host w = .ok (.peEncode kind bank)) ∧
  (∀ (issuer : Issuer) (w : Byte) (e : DecodeError) (s : State), decodeFrom issuer w = .error e →
    issue issuer w s = .next { s with
      status := .illegalOp, fatal := true, fatalCode := if s.fatal then s.fatalCode else .illegalOp
      ev := s.ev ++ [.report w .illegalOp] })

/-- Section 1: words written out bit by bit from the formats decode to the operations they stand for. -/
def Obligations.WrittenOutWordsDecode : Prop :=
  decode 0b00010000#8 = .ok .tsdDecode ∧ decode 0b10100000#8 = .ok .fppRead ∧ decode 0b01000001#8 = .ok (.raaPush .B) ∧
  decode 0b01010010#8 = .ok (.raaAvg .X) ∧ decode 0b01110101#8 = .ok (.peEncode 1 .AV) ∧
  decode 0b10110000#8 = .ok .rotStep ∧ decode 0b11000001#8 = .ok .waitCycle

/-- R96: the status codes and the fatal class. -/
def Obligations.StatusCodesAreTheListed : Prop :=
  [Status.ok, .timeoutStart, .timeoutRecv, .checksum, .frameNotFound, .incompleteFrame, .invalidSlot, .emptyWindow,
    .transport, .illegalOp].map (fun st => (st.code.toNat, st.isFatal)) =
  [(0, false), (1, false), (2, false), (3, false), (4, false), (5, false), (6, true), (7, true), (8, false), (15, true)] ∧
  ∀ st : Status, ¬ (9 ≤ st.code.toNat ∧ st.code.toNat ≤ 14)

/-! ### The operations -/

/-- R230: `NOP`. -/
def Obligations.NopOnlyWritesOk : Prop :=
  decodeFrom .host 0x00 = .ok .nop ∧ decodeFrom .orc 0x00 = .ok .nop ∧
  (∀ s : State, exec .nop s = .next { s with status := .ok }) ∧
  (∀ s : State, s.orcPc = .p11 → s.cntA = 0 → orcWord s = some 0x00) ∧
  (∀ s : State, s.orcPc = .p12 → s.cntB = 0 → orcWord s = some 0x00)

/-- R232: `WAIT.RETRY`. -/
def Obligations.WaitRetryDelaysAndCounts : Prop :=
  decodeFrom .host 0xC0 = .ok .waitRetry ∧
  ∀ s : State, ∃ n : Fin 128, n.val = min (s.nfail.val + 1) 127 ∧
    exec .waitRetry s = .next { s with nfail := n, ev := s.ev ++ [.delay .orc 2000], status := .ok }

/-- R233: `WAIT.CYCLE`. -/
def Obligations.WaitCycleDelaysTheRest : Prop :=
  decodeFrom .host 0xC1 = .ok .waitCycle ∧
  ∀ s : State, ∃ n : Nat, (n : Int) = max 0 ((s.cfg.tCycle : Int) - 2000 * s.nfail.val) ∧
    exec .waitCycle s = .next { s with nfail := 0, ev := s.ev ++ [.delay .orc n], status := .ok }

/-- R236, R237: `IND.BAND`; the band is the greater of the numbers of thresholds exceeded, 5 where `CNT_B = 0`. -/
def Obligations.IndBandDrivesTheHigherBand : Prop :=
  decodeFrom .host 0x80 = .ok .indBand ∧
  ∀ s : State, ∃ k : Fin 6,
    k.val = (if s.cntB = 0 then 5 else
      max ([13, 35, 55, 75, 110].filter (· < s.avb.aePm25.toNat)).length
        ([20, 50, 80, 110, 150].filter (· < s.avb.aePm100.toNat)).length) ∧
    exec .indBand s = .next { s with
      band := k
      ev := s.ev ++ [.indicator k s.cfg.bandRgb[k].r s.cfg.bandRgb[k].g s.cfg.bandRgb[k].b]
      status := .ok }

/-- R180: `AUX.SAMPLE`. -/
def Obligations.AuxSampleTakesTheAnswer : Prop :=
  decodeFrom .host 0x90 = .ok .auxSample ∧
  ∀ (s : State) (v : Byte) (h : Inputs), s.host.drawAux = (v, h) →
    exec .auxSample s = .next { s with sx := v, ev := s.ev ++ [.aux v], host := h, status := .ok }

/-- R184: `RAA.PUSH`. -/
def Obligations.RaaPushWritesAtTheOffset : Prop :=
  (decodeFrom .host 0x40 = .ok (.raaPush .A) ∧ decodeFrom .host 0x41 = .ok (.raaPush .B) ∧
    decodeFrom .host 0x42 = .ok (.raaPush .X) ∧ decodeFrom .host 0x43 = .error .illegalChannel) ∧
  ∀ s : State,
    (∃ c : Fin 11, c.val = min (s.cntA.val + 1) 10 ∧
      exec (.raaPush .A) s = .next { s with histA := s.histA.set s.off s.sa, cntA := c, status := .ok }) ∧
    (∃ c : Fin 11, c.val = min (s.cntB.val + 1) 10 ∧
      exec (.raaPush .B) s = .next { s with histB := s.histB.set s.off s.sb, cntB := c, status := .ok }) ∧
    (∃ c : Fin 11, c.val = min (s.cntX.val + 1) 10 ∧
      exec (.raaPush .X) s = .next { s with histX := s.histX.set s.off s.sx, cntX := c, status := .ok })

/-- R188, R189: `RAA.AVG` writes the exact mean, rounded toward minus infinity, of the elements with array indices below
`CNT_c`, field by field; on an empty window it raises `EMPTY_WINDOW` and keeps the average. -/
def Obligations.RaaAvgIsTheFloorMean : Prop :=
  (decodeFrom .host 0x50 = .ok (.raaAvg .A) ∧ decodeFrom .host 0x51 = .ok (.raaAvg .B) ∧
    decodeFrom .host 0x52 = .ok (.raaAvg .X) ∧ decodeFrom .host 0x53 = .error .illegalChannel) ∧
  (∀ s : State, 0 < s.cntA → ∃ a : SampleA,
    exec (.raaAvg .A) s = .next { s with ava := a, status := .ok } ∧
    isFloorMean a.temp.toInt ((s.histA.toList.take s.cntA).map fun e => e.temp.toInt) s.cntA ∧
    isFloorMean a.hum.toNat ((s.histA.toList.take s.cntA).map fun e => (e.hum.toNat : Int)) s.cntA) ∧
  (∀ s : State, 0 < s.cntB → ∃ b : SampleB,
    exec (.raaAvg .B) s = .next { s with avb := b, status := .ok } ∧
    ∀ f : Fin 12,
      isFloorMean (b.field f).toNat ((s.histB.toList.take s.cntB).map fun e => ((e.field f).toNat : Int)) s.cntB) ∧
  (∀ s : State, 0 < s.cntX → ∃ x : Byte,
    exec (.raaAvg .X) s = .next { s with avx := x, status := .ok } ∧
    isFloorMean x.toNat ((s.histX.toList.take s.cntX).map fun e => (e.toNat : Int)) s.cntX) ∧
  (∀ (s : State) (ch : Channel), s.cnt ch = 0 →
    exec (.raaAvg ch) s = .next { s with
      status := .emptyWindow, fatal := true, fatalCode := if s.fatal then s.fatalCode else .emptyWindow
      ev := s.ev ++ [.report (match ch with | .A => 0x50 | .B => 0x51 | .X => 0x52) .emptyWindow] })

/-- R192: `RAA.ADV`. -/
def Obligations.RaaAdvTurnsTheOffset : Prop :=
  decodeFrom .host 0x60 = .ok .raaAdv ∧
  ∀ s : State, ∃ o : Fin 10, o.val = (s.off.val + 1) % 10 ∧
    exec .raaAdv s = .next { s with off := o, status := .ok }

/-- R204, R206: `PE.ENCODE` writes the 25 record bytes of its slot and nothing else; `kind` 2 and 3 raise
`INVALID_SLOT`. -/
def Obligations.PeEncodeWritesOneRecord : Prop :=
  (decodeFrom .host 0x70 = .ok (.peEncode 0 .S) ∧ decodeFrom .host 0x75 = .ok (.peEncode 1 .AV) ∧
    decodeFrom .host 0x72 = .ok (.peEncode 2 .S) ∧ decodeFrom .host 0x77 = .ok (.peEncode 3 .AV) ∧
    decodeFrom .host 0x78 = .error .mustBeZero) ∧
  (∀ (s : State) (k : Fin 2) (bank : Bank),
    exec (.peEncode k.val bank) s = .next { s with
      slots := s.slots.set k ⟨s.slots[k].header, pePack s.cfg.pcntBigEndian
        (match bank with | .S => s.sa | .AV => s.ava) (match bank with | .S => s.sb | .AV => s.avb) s.avx k.val⟩
      status := .ok }) ∧
  (∀ (s : State) (kind : Nat) (bank : Bank), 2 ≤ kind → kind < 4 →
    exec (.peEncode kind bank) s = .next { s with
      status := .invalidSlot, fatal := true, fatalCode := if s.fatal then s.fatalCode else .invalidSlot
      ev := s.ev ++ [.report (BitVec.ofNat 8 (0x70 + 4 * (match bank with | .S => 0 | .AV => 1) + kind)) .invalidSlot] })

/-- R200 to R203, R207, R208: the 25 bytes of a record. -/
def Obligations.PackedRecordBytes : Prop :=
  ∀ (e : Bool) (a : SampleA) (b : SampleB) (x : Byte) (kind : Nat), kind < 4 →
    let bytes := pePack e a b x kind
    (bytes[0].toNat = headNumber a kind / 65536 ∧ bytes[1].toNat = headNumber a kind / 256 % 256 ∧
      bytes[2].toNat = headNumber a kind % 256) ∧
    packedPair bytes[3] bytes[4] bytes[5] b.smPm10 b.smPm25 ∧
    packedPair bytes[6] bytes[7] bytes[8] b.smPm100 b.aePm10 ∧
    packedPair bytes[9] bytes[10] bytes[11] b.aePm25 b.aePm100 ∧
    packedCount e bytes[12] bytes[13] b.pc0 ∧ packedCount e bytes[14] bytes[15] b.pc1 ∧
    packedCount e bytes[16] bytes[17] b.pc2 ∧ packedCount e bytes[18] bytes[19] b.pc3 ∧
    packedCount e bytes[20] bytes[21] b.pc4 ∧ packedCount e bytes[22] bytes[23] b.pc5 ∧ bytes[24] = x

/-- R209: unpacking a packed record gives its inputs back inside the field widths; the counts and the scalar always. -/
def Obligations.UnpackOfPackIsIdentity : Prop :=
  (∀ (e : Bool) (a : SampleA) (b : SampleB) (x : Byte) (kind : Nat), kind ≤ 3 → a.temp.toInt.natAbs ≤ 2047 →
    a.hum.toNat ≤ 1023 → (∀ f : Fin 12, f.val < 6 → (b.field f).toNat ≤ 4095) →
    peUnpack e (pePack e a b x kind) = ⟨kind, a, b, x⟩) ∧
  (∀ (e : Bool) (a : SampleA) (b : SampleB) (x : Byte) (kind : Nat),
    (∀ f : Fin 12, 6 ≤ f.val → (peUnpack e (pePack e a b x kind)).b.field f = b.field f) ∧
    (peUnpack e (pePack e a b x kind)).x = x)

/-- R150: `FPP.READ` keeps the first `RXCAP` bytes of the answer, or clears `RXLEN` and raises `TRANSPORT`. -/
def Obligations.FppReadKeepsTheFirstBytes : Prop :=
  decodeFrom .host 0xA0 = .ok .fppRead ∧
  (∀ (s : State) (r : List Byte) (h : Inputs), s.rxBuf.wf = true → s.host.drawRead = (.bytes r, h) →
    ∃ m : Memory, exec .fppRead s = .next { s with
        rxBuf := m, rxLen := min r.length s.cfg.rxcap, ev := s.ev ++ [.read (.bytes r)], host := h, status := .ok } ∧
      m.wf = true ∧
      ∀ j, m.read j = if j < min r.length s.cfg.rxcap then r.getD j 0 else s.rxBuf.read j) ∧
  (∀ (s : State) (h : Inputs), s.host.drawRead = (.transportError, h) →
    exec .fppRead s = .next { s with
      rxLen := 0, status := .transport, host := h
      ev := s.ev ++ [.read .transportError, .report 0xA0 .transport] })

/-- R155 to R158, R161: `FPP.PARSE` judges the frame at the first sync marker. -/
def Obligations.FppParseJudgesTheFirstMarker : Prop :=
  decodeFrom .host 0x20 = .ok .fppParse ∧
  ∀ s : State,
    ((∀ i, ¬ markerAt s i) →
      exec .fppParse s =
        .next { s with status := .frameNotFound, ev := s.ev ++ [.report 0x20 .frameNotFound] }) ∧
    (∀ i, firstMarkerAt s i → ¬ i + 31 < s.rxLen →
      exec .fppParse s =
        .next { s with status := .incompleteFrame, ev := s.ev ++ [.report 0x20 .incompleteFrame] }) ∧
    (∀ i, firstMarkerAt s i → i + 31 < s.rxLen →
      ((List.range 30).map fun j => (s.rxBuf.read (i + j)).toNat).sum % 65536 ≠
        256 * (s.rxBuf.read (i + 30)).toNat + (s.rxBuf.read (i + 31)).toNat →
      exec .fppParse s = .next { s with status := .checksum, ev := s.ev ++ [.report 0x20 .checksum] }) ∧
    (∀ i, firstMarkerAt s i → i + 31 < s.rxLen →
      ((List.range 30).map fun j => (s.rxBuf.read (i + j)).toNat).sum % 65536 =
        256 * (s.rxBuf.read (i + 30)).toNat + (s.rxBuf.read (i + 31)).toNat →
      let v : Nat → U16 := fun f =>
        BitVec.ofNat 16 (256 * (s.rxBuf.read (i + 4 + 2 * f)).toNat + (s.rxBuf.read (i + 5 + 2 * f)).toNat)
      exec .fppParse s = .next { s with
        sb := ⟨v 0, v 1, v 2, v 3, v 4, v 5, v 6, v 7, v 8, v 9, v 10, v 11⟩, status := .ok })

/-- R165: `FPP.CMD` sends the seven bytes and keeps them in `TXBUF`; any answer but the count 7 is `TRANSPORT`; ORC never
issues it. -/
def Obligations.FppCmdSendsTheFrame : Prop :=
  decodeFrom .host 0x30 = .ok .fppCmd ∧ (∀ s : State, orcWord s ≠ some 0x30) ∧
  ∀ (s : State) (a : WriteAnswer) (h : Inputs), s.host.drawWrite = (a, h) →
    let hi := s.cmdArg.toNat / 256
    let lo := s.cmdArg.toNat % 256
    let ck := 0x42 + 0x4D + s.cmdOp.toNat + hi + lo
    let frame : Vector Byte 7 := #v[0x42, 0x4D, s.cmdOp, BitVec.ofNat 8 hi, BitVec.ofNat 8 lo,
      BitVec.ofNat 8 (ck / 256), BitVec.ofNat 8 (ck % 256)]
    (a = .count 7 → exec .fppCmd s = .next { s with
      txBuf := frame, ev := s.ev ++ [.write frame.toList a], host := h, status := .ok }) ∧
    (a ≠ .count 7 → exec .fppCmd s = .next { s with
      txBuf := frame, status := .transport, host := h
      ev := s.ev ++ [.write frame.toList a, .report 0x30 .transport] })

/-- R138, R132: the first of the 82 waits above 260 ends `TSD.DECODE`; the later ones are not made. -/
def Obligations.TsdDecodeEndsAtTheFirstTimeout : Prop :=
  ∀ (s : State) (f : Nat), f < 82 →
    let w := (drawPulses 82 s.host).1
    w.getD f 0 > 260 → (∀ j < f, w.getD j 0 ≤ 260) →
    let st := if f < 2 then Status.timeoutStart else Status.timeoutRecv
    exec .tsdDecode s = .next { s with
      status := st, host := (drawPulses (f + 1) s.host).2
      ev := s.ev ++ [.lineLow 8600, .lineRelease] ++ pulseEvents w (f + 1) ++ [.report 0x10 st] }

/-- R133 to R136, R131: `TSD.DECODE` with all 82 waits within the timeout writes `SA` where the checksum holds, and
raises `CHECKSUM` where it does not. -/
def Obligations.TsdDecodeReadsTheSample : Prop :=
  decodeFrom .host 0x10 = .ok .tsdDecode ∧
  ∀ s : State,
    let w := (drawPulses 82 s.host).1
    let b := pulseByte w
    (∀ j < 82, w.getD j 0 ≤ 260) →
    (b 4 = (b 0 + b 1 + b 2 + b 3) % 256 →
      exec .tsdDecode s = .next { s with
        sa := ⟨BitVec.ofInt 16 (if b 2 ≥ 128 then -((b 2 % 128 * 256 + b 3 : Nat) : Int) else (b 2 % 128 * 256 + b 3 : Nat)),
          BitVec.ofNat 16 (b 0 * 256 + b 1)⟩
        status := .ok, host := (drawPulses 82 s.host).2
        ev := s.ev ++ [.lineLow 8600, .lineRelease] ++ pulseEvents w 82 }) ∧
    (b 4 ≠ (b 0 + b 1 + b 2 + b 3) % 256 →
      exec .tsdDecode s = .next { s with
        status := .checksum, host := (drawPulses 82 s.host).2
        ev := s.ev ++ [.lineLow 8600, .lineRelease] ++ pulseEvents w 82 ++ [.report 0x10 .checksum] })

/-- R135, R136: the checksum and the unpacking of five bytes, as numbers. -/
def Obligations.SensorABytesCheckAndUnpack : Prop :=
  ∀ b : TsdBytes,
    (tsdCheck b = true ↔ b.b4.toNat = (b.b0.toNat + b.b1.toNat + b.b2.toNat + b.b3.toNat) % 256) ∧
    (tsdUnpack b).hum.toNat = 256 * b.b0.toNat + b.b1.toNat ∧
    (tsdUnpack b).temp.toInt =
      if b.b2.toNat ≥ 128 then -((256 * (b.b2.toNat % 128) + b.b3.toNat : Nat) : Int)
      else (256 * (b.b2.toNat % 128) + b.b3.toNat : Nat)

/-- R215: `ROT.STEP`. -/
def Obligations.RotStepHandsOverOneSlot : Prop :=
  decodeFrom .rot 0xB0 = .ok .rotStep ∧ decodeFrom .host 0xB0 = .error .notFromRot ∧
  ∀ s : State, ∃ k : Fin 2, k.val = (s.rotIdx.val + 1) % 2 ∧
    exec .rotStep s = .next { s with
      rotIdx := k
      ev := s.ev ++ [.advertise s.rotIdx (s.slots[s.rotIdx].header.toList ++ s.slots[s.rotIdx].record.toList),
        .delay .rot 100] }

/-! ### Exceptions (60_exceptions.md) -/

/-- R276: an illegal word raises `ILLEGAL_OP` and does nothing else, in direct mode; the sequencer and ROT issue none. -/
def Obligations.IllegalWordRaisesAndNothingElse : Prop :=
  (∀ (s : State) (w : Byte) (h : Inputs) (e : DecodeError), s.run = false → turnOf s = .orc →
    (afterTurn s).host.drawCommand = (w, h) → decodeFrom .host w = .error e →
    step s = .next { s with
      status := .illegalOp, fatal := true, fatalCode := if s.fatal then s.fatalCode else .illegalOp
      ev := s.ev ++ [.report w .illegalOp], host := h }) ∧
  (∀ (s : State) (w : Byte), orcWord s = some w → ∃ i, decodeFrom .orc w = .ok i) ∧
  (∃ i, decodeFrom .rot 0xB0 = .ok i)

/-- R271: the statuses an operation can complete with; `ROT.STEP` writes none. -/
def Obligations.OperationsCompleteWithAllowedStatuses : Prop :=
  ∀ (i : Instr) (s t : State), exec i s = .next t →
    (i ≠ .rotStep → t.status ∈ allowedStatuses i) ∧ (i = .rotStep → t.status = s.status)

/-- R274, R277: what an operation that completes with another status than `OK` leaves. -/
def Obligations.RaisingOperationsLeaveTheRest : Prop :=
  ∀ (i : Instr) (s t : State), exec i s = .next t → i ≠ .rotStep → t.status ≠ .ok →
    (∃ es, (∀ op st, Event.report op st ∉ es) ∧
      t = { s with
        status := t.status
        fatal := s.fatal || t.status.isFatal
        fatalCode := if t.status.isFatal && !s.fatal then t.status else s.fatalCode
        ev := s.ev ++ es ++ [.report (encode i) t.status]
        rxLen := t.rxLen, txBuf := t.txBuf, host := t.host }) ∧
    t.rxLen = (if i = .fppRead then 0 else s.rxLen) ∧ (i ≠ .fppCmd → t.txBuf = s.txBuf)

/-- R29, R278: `FATAL` and `FATAL_CODE` through any step but a reset. -/
def Obligations.FatalIsSticky : Prop :=
  ∀ s t : State, step s = .next t → (∀ run, turnOf s ≠ .reset run) →
    (s.fatal = true → t.fatal = true ∧ t.fatalCode = s.fatalCode) ∧
    (s.fatal = false → t.fatal = true → t.status.isFatal = true ∧ t.fatalCode = t.status) ∧
    (s.fatal = false → t.fatal = false → t.fatalCode = s.fatalCode)

/-! ### The step of the machine -/

/-- R8, R90, R245: a step runs the operation that the word before the decoder stands for: in direct mode the word on the
command port; in run mode the word of the sequencer's state, then parts (2) and (3) of R245; for ROT, `ROT.STEP`. What a
turn is, and where the offered words stand, are the model's choices (log entries 4 and 5). -/
def Obligations.StepRunsTheDecodedOperation : Prop :=
  (∀ (s : State) (w : Byte) (h : Inputs) (i : Instr), s.run = false → turnOf s = .orc →
    (afterTurn s).host.drawCommand = (w, h) → decode w = .ok i → i ≠ .rotStep →
    step s = exec i { s with host := h }) ∧
  (∀ (s : State) (w : Byte) (i : Instr) (a : Fin 61), s.run = true → turnOf s = .orc → orcWord s = some w →
    decode w = .ok i → attAfterRow s.orcPc s.att = some a →
    step s = mapNext (sequence s.orcPc a) (exec i (afterTurn s))) ∧
  (∀ s : State, turnOf s = .rot → step s = exec .rotStep (afterTurn s))

/-- R300: reset, as one action. That the open parameters (R302) and the host's answers and turns to come outlive it is
the model's choice (log entries 1 and 6). -/
def Obligations.ResetIsOneAction : Prop :=
  ∀ (s : State) (run : Bool), turnOf s = .reset run →
    step s = .next {
      sa := ⟨0, 0⟩, sb := ⟨0, 0, 0, 0, 0, 0, 0, 0, 0, 0, 0, 0⟩, sx := 0
      ava := ⟨0, 0⟩, avb := ⟨0, 0, 0, 0, 0, 0, 0, 0, 0, 0, 0, 0⟩, avx := 0
      cmdOp := 0, cmdArg := 0, orcPc := if run then .p0 else .idle
      status := .ok, fatal := false, fatalCode := .ok
      off := 0, rotIdx := 0, cntA := 0, cntB := 0, cntX := 0, att := 0, nfail := 0, rxLen := 0, band := 0, run := run
      histA := Vector.replicate 10 ⟨0, 0⟩
      histB := Vector.replicate 10 ⟨0, 0, 0, 0, 0, 0, 0, 0, 0, 0, 0, 0⟩
      histX := Vector.replicate 10 0
      slots := Vector.replicate 2 ⟨s.cfg.hdr, Vector.replicate 25 0⟩
      rxBuf := [], txBuf := Vector.replicate 7 0, ev := []
      cfg := s.cfg, host := (afterTurn s).host }

/-- R54: the reset values, in the state the machine starts from. -/
def Obligations.ResetStateHoldsTheListedValues : Prop :=
  let s := State.reset
  (s.sa = ⟨0, 0⟩ ∧ s.sb = ⟨0, 0, 0, 0, 0, 0, 0, 0, 0, 0, 0, 0⟩ ∧ s.sx = 0 ∧ s.ava = ⟨0, 0⟩ ∧
    s.avb = ⟨0, 0, 0, 0, 0, 0, 0, 0, 0, 0, 0, 0⟩ ∧ s.avx = 0) ∧
  (s.cmdOp = 0 ∧ s.cmdArg = 0) ∧ s.orcPc = (if s.run then .p0 else .idle) ∧
  (s.status.code = 0 ∧ s.fatal = false ∧ s.fatalCode.code = 0) ∧
  (s.off = 0 ∧ s.rotIdx = 0 ∧ s.cntA = 0 ∧ s.cntB = 0 ∧ s.cntX = 0 ∧ s.att = 0 ∧ s.nfail = 0 ∧ s.rxLen = 0 ∧
    s.band = 0) ∧
  (∀ k : Fin 10, s.histA[k] = ⟨0, 0⟩ ∧ s.histB[k] = ⟨0, 0, 0, 0, 0, 0, 0, 0, 0, 0, 0, 0⟩ ∧ s.histX[k] = 0) ∧
  (∀ k : Fin 2, s.slots[k].header = s.cfg.hdr ∧ ∀ j : Fin 25, s.slots[k].record[j] = 0) ∧
  (∀ j, s.rxBuf.read j = 0) ∧ (∀ j : Fin 7, s.txBuf[j] = 0) ∧ s.ev = []

/-- R245: the seventeen rows of the ORC program; in `IDLE` and `HALT` there is no row. -/
def Obligations.SequencerFollowsTheTable : Prop :=
  ∀ s : State, s.run = true → turnOf s = .orc →
    (s.orcPc = .p0 → followsRow s .auxSample (fun _ => s.att) (fun _ => .p1)) ∧
    (s.orcPc = .p1 → followsRow s (.raaPush .X) (fun _ => 0) (fun _ => .p2)) ∧
    (s.orcPc = .p2 → s.att.val + 1 < 60 →
      followsRow s .tsdDecode (fun _ => s.att.val + 1) (fun ok => if ok then .p3 else .p4)) ∧
    (s.orcPc = .p2 → s.att.val + 1 = 60 →
      followsRow s .tsdDecode (fun ok => if ok then 60 else 0) (fun ok => if ok then .p3 else .p5)) ∧
    (s.orcPc = .p3 → followsRow s (.raaPush .A) (fun _ => 0) (fun _ => .p5)) ∧
    (s.orcPc = .p4 → followsRow s .waitRetry (fun _ => s.att) (fun _ => .p2)) ∧
    (s.orcPc = .p5 → s.att.val + 1 < 60 →
      followsRow s .fppRead (fun _ => s.att.val + 1) (fun ok => if ok then .p6 else .p8)) ∧
    (s.orcPc = .p5 → s.att.val + 1 = 60 →
      followsRow s .fppRead (fun _ => 60) (fun ok => if ok then .p6 else .p9)) ∧
    (s.orcPc = .p6 → s.att.val < 60 →
      followsRow s .fppParse (fun _ => s.att) (fun ok => if ok then .p7 else .p8)) ∧
    (s.orcPc = .p6 → s.att.val = 60 →
      followsRow s .fppParse (fun _ => s.att) (fun ok => if ok then .p7 else .p9)) ∧
    (s.orcPc = .p7 → followsRow s (.raaPush .B) (fun _ => s.att) (fun _ => .p9)) ∧
    (s.orcPc = .p8 → followsRow s .waitRetry (fun _ => s.att) (fun _ => .p5)) ∧
    (s.orcPc = .p9 → followsRow s (.raaAvg .X) (fun _ => s.att) (fun _ => .p10)) ∧
    (s.orcPc = .p10 → followsRow s (.peEncode 0 .S) (fun _ => s.att) (fun _ => .p11)) ∧
    (s.orcPc = .p11 →
      followsRow s (if s.cntA > 0 then .raaAvg .A else .nop) (fun _ => s.att) (fun _ => .p12)) ∧
    (s.orcPc = .p12 →
      followsRow s (if s.cntB > 0 then .raaAvg .B else .nop) (fun _ => s.att) (fun _ => .p13)) ∧
    (s.orcPc = .p13 → followsRow s (.peEncode 1 .AV) (fun _ => s.att) (fun _ => .p14)) ∧
    (s.orcPc = .p14 → followsRow s .indBand (fun _ => s.att) (fun _ => .p15)) ∧
    (s.orcPc = .p15 → followsRow s .raaAdv (fun _ => s.att) (fun _ => .p16)) ∧
    (s.orcPc = .p16 → followsRow s .waitCycle (fun _ => s.att) (fun _ => .p0)) ∧
    (s.orcPc = .idle ∨ s.orcPc = .halt → orcWord s = none)

/-- R39: with `RUN = 1` a command word is never accepted and has no effect. -/
def Obligations.CommandPortIsDeadInRunMode : Prop :=
  ∀ (s : State) (cs : List Byte), s.run = true → step (withCmds cs s) = mapNext (withCmds cs) (step s)

/-- R249: in direct mode the sequencer registers are never written. -/
def Obligations.DirectModeLeavesTheSequencer : Prop :=
  ∀ s t : State, step s = .next t → s.run = false → (∀ run, turnOf s ≠ .reset run) →
    t.orcPc = s.orcPc ∧ t.att = s.att ∧ t.run = false

/-- R249, R216: `HALT` is left by reset only, the slots keep their contents there, and ROT goes on. That a turn of ORC in
`HALT` is taken by ROT is the model's choice (log entry 4). -/
def Obligations.HaltIsLeftByResetOnly : Prop :=
  ∀ s : State, s.run = true → s.orcPc = .halt → (∀ run, turnOf s ≠ .reset run) →
    step s = exec .rotStep (afterTurn s) ∧ ∀ t, step s = .next t → t.orcPc = .halt ∧ t.slots = s.slots

/-- R70: ROT writes `ROT_IDX` alone and reads that and the slots alone; the ORC side neither reads nor writes `ROT_IDX`; no
operation writes a slot's header. -/
def Obligations.OrcAndRotShareOnlyTheRecords : Prop :=
  (∀ s t : State, turnOf s = .rot → step s = .next t →
    t = { s with rotIdx := t.rotIdx, ev := t.ev, host := (afterTurn s).host }) ∧
  (∀ s s' t t' : State, turnOf s = .rot → turnOf s' = .rot → s.rotIdx = s'.rotIdx → s.slots = s'.slots →
    step s = .next t → step s' = .next t' →
    t.rotIdx = t'.rotIdx ∧ ∃ es, t.ev = s.ev ++ es ∧ t'.ev = s'.ev ++ es) ∧
  (∀ (i : Instr) (s : State) (k : Fin 2), i ≠ .rotStep →
    exec i { s with rotIdx := k } = mapNext (fun t => { t with rotIdx := k }) (exec i s)) ∧
  (∀ (i : Instr) (s t : State) (k : Fin 2), exec i s = .next t → (t.slot k).header = (s.slot k).header)

/-- R20 to R26, R30 to R38, R50 to R52: which operations write which register and which memory. -/
def Obligations.RegistersHaveTheirWriters : Prop :=
  ∀ (i : Instr) (s t : State), exec i s = .next t →
    (i ≠ .tsdDecode → t.sa = s.sa) ∧ (i ≠ .fppParse → t.sb = s.sb) ∧ (i ≠ .auxSample → t.sx = s.sx) ∧
    (i ≠ .raaAvg .A → t.ava = s.ava) ∧ (i ≠ .raaAvg .B → t.avb = s.avb) ∧ (i ≠ .raaAvg .X → t.avx = s.avx) ∧
    (t.cmdOp = s.cmdOp ∧ t.cmdArg = s.cmdArg ∧ t.run = s.run ∧ t.orcPc = s.orcPc ∧ t.att = s.att ∧ t.cfg = s.cfg) ∧
    (i ≠ .raaAdv → t.off = s.off) ∧ (i ≠ .rotStep → t.rotIdx = s.rotIdx) ∧
    (i ≠ .raaPush .A → t.cntA = s.cntA ∧ t.histA = s.histA) ∧
    (i ≠ .raaPush .B → t.cntB = s.cntB ∧ t.histB = s.histB) ∧
    (i ≠ .raaPush .X → t.cntX = s.cntX ∧ t.histX = s.histX) ∧
    (i ≠ .waitRetry → i ≠ .waitCycle → t.nfail = s.nfail) ∧
    (i ≠ .fppRead → t.rxLen = s.rxLen ∧ t.rxBuf = s.rxBuf) ∧ (i ≠ .fppCmd → t.txBuf = s.txBuf) ∧
    (i ≠ .indBand → t.band = s.band) ∧
    (∀ k : Fin 2, (∀ bank, i ≠ .peEncode k.val bank) → t.slot k = s.slot k)

/-- R302, R37: no step changes the open parameters, and only reset changes `RUN`. That the parameters stand in the state
is the model's choice (log entry 1). -/
def Obligations.ParametersNeverChange : Prop :=
  ∀ s t : State, step s = .next t → t.cfg = s.cfg ∧ ((∀ run, turnOf s ≠ .reset run) → t.run = s.run)

/-- The model's own stop (log entry 9): the sequencer does not start an attempt with `ATT = 60`, for which R245 has no
row. -/
def Obligations.SixtyFirstAttemptStops : Prop :=
  ∀ s : State, s.run = true → turnOf s = .orc → s.att = 60 → s.orcPc = .p2 ∨ s.orcPc = .p5 →
    step s = .fault .sixtyFirstAttempt

/-! ### Invariants -/

/-- 10_state.md section 4, R254: the invariant holds after reset, for either strap. -/
def Obligations.InvariantHoldsAtReset : Prop :=
  Inv State.reset ∧
    ∀ (cfg : Params) (run : Bool) (host : Inputs), 32 ≤ cfg.rxcap → Inv (State.afterReset cfg run host)

/-- 10_state.md section 4, R252, R254 a, d and f: every step keeps the invariant. -/
def Obligations.InvariantIsKeptByEveryStep : Prop :=
  ∀ s t : State, Inv s → step s = .next t → Inv t

/-- R245, R254: in a state of the invariant the machine can always step: it neither faults nor refuses. -/
def Obligations.InvariantStatesAlwaysStep : Prop :=
  ∀ s : State, Inv s → ∃ t, step s = .next t

/-- R216: the `Advertise` events name the slots 0, 1, 0, 1, …, after reset and through every step. -/
def Obligations.RotationAlternatesTheSlots : Prop :=
  rotationOk State.reset ∧ ∀ s t : State, rotationOk s → step s = .next t → rotationOk t

/-- R66, R217: an `Advertise` event carries the header and one whole record, zeros or what one `PE.ENCODE` packed. Step by
step: a slot is kept, or takes the whole record that the `PE.ENCODE` of this very step packs from the registers before it;
the event appended is that of the 31 bytes of slot `ROT_IDX` before the step. And through every step from reset, each slot
and each event of the history has the header and a record with the slot's own tag. -/
def Obligations.BroadcastsCarryWholeRecords : Prop :=
  (∀ (s t : State) (k : Fin 2), step s = .next t → (∀ run, turnOf s ≠ .reset run) →
    ((∀ bank, ¬ encodesNow s k bank) → t.slot k = s.slot k) ∧
    ∀ bank, encodesNow s k bank → t.slot k = ⟨(s.slot k).header, packedNow s k bank⟩) ∧
  (∀ s t : State, step s = .next t → (∀ run, turnOf s ≠ .reset run) →
    ∃ es, t.ev = s.ev ++ es ∧
      ∀ k bytes, .advertise k bytes ∈ es → k = s.rotIdx ∧ bytes = (s.slot s.rotIdx).bytes) ∧
  (∀ (s t : State) (run : Bool), step s = .next t → turnOf s = .reset run →
    t.ev = [] ∧ ∀ k, t.slot k = ⟨s.cfg.hdr, zeroRecord⟩) ∧
  BroadcastOk State.reset ∧ ∀ s t : State, BroadcastOk s → step s = .next t → BroadcastOk t

/-- R66 b, R217 c: in a run that starts with the reset records and an empty history, every `Advertise(k, bytes)` carries
the header and either 25 zeros or the record that one earlier `PE.ENCODE k` of the run packed from the registers as they
stood then; never a mixture. -/
def Obligations.AdvertisedRecordsAreOfOneEncode : Prop :=
  ∀ (s t : State) (n : Nat), s.ev = [] → (∀ k, s.slot k = ⟨s.cfg.hdr, zeroRecord⟩) → core.run n s = .next t →
    ∀ k bytes, .advertise k bytes ∈ t.ev →
      bytes = s.cfg.hdr.toList ++ zeroRecord.toList ∨
      ∃ m u bank, m < n ∧ core.run m s = .next u ∧ encodesNow u k bank ∧
        bytes = s.cfg.hdr.toList ++ (packedNow u k bank).toList

/-- R254 c: at `P0` of cycle number `t`, `OFF = t mod 10` and `CNT_X = min(t, 10)`; with the form this takes in every
other state of the sequencer, every step keeps it. -/
def Obligations.CyclesTurnTheOffset : Prop :=
  cycleOk State.reset ∧ ∀ s t : State, cycleOk s → step s = .next t → cycleOk t

/-- R254 b: every sequencer step of run mode that does not end the cycle lowers the bound on the steps left. -/
def Obligations.SequencerStepsDescend : Prop :=
  ∀ s t : State, Inv s → s.run = true → turnOf s = .orc → step s = .next t →
    t.orcPc = .p0 ∨ cycleStepsLeft t.orcPc t.att.val < cycleStepsLeft s.orcPc s.att.val

/-- R254 b: every cycle ends within 310 steps of the sequencer, whatever the host answers and however ROT steps in
between. -/
def Obligations.CycleEndsWithin310Steps : Prop :=
  ∀ (s : State) (l rest : List Turn), Inv s → s.run = true → s.orcPc = .p0 → s.host.turns = l ++ rest →
    (∀ run, Turn.reset run ∉ l) → l.count .orc = 310 →
    ∃ n t, n ≤ l.length ∧ 0 < (l.take n).count .orc ∧ Sys2Proof.core.run n s = .next t ∧ t.orcPc = .p0

/-! ### Weak fairness (00_scope.md R8, 70_reset_and_hazards.md R326) -/

/-- R326, R216: ROT always steps again; and either slot `k` is handed over again, with the 31 bytes it holds by then, or a
reset comes first. That the fairness is in the draw of the turns is the model's choice (log entry 4). -/
def Obligations.RotAlwaysStepsAgain : Prop :=
  (∀ s : State, Inv s → ∃ n t, core.run n s = .next t ∧ turnOf t = .rot) ∧
  ∀ (s : State) (k : Fin 2), Inv s → ∃ n t, core.run n s = .next t ∧
    ((∃ run, turnOf t = .reset run) ∨
      ∃ u, step t = .next u ∧ u.slots = t.slots ∧ u.ev = t.ev ++ [.advertise k (t.slot k).bytes, .delay .rot 100])

/-- R8, R254 b: in run mode the sequencer always steps again, and every cycle ends, unless a reset comes first. That the
fairness is in the draw of the turns is the model's choice (log entry 4). -/
def Obligations.SequencerAlwaysStepsAgain : Prop :=
  (∀ s : State, Inv s → s.run = true → ∃ n t, core.run n s = .next t ∧
    ((∃ run, turnOf t = .reset run) ∨ (turnOf t = .orc ∧ t.run = true))) ∧
  ∀ s : State, Inv s → s.run = true → ∃ n t, core.run n s = .next t ∧
    ((∃ run, turnOf t = .reset run) ∨
      (turnOf t = .orc ∧ t.run = true ∧ ∃ u, step t = .next u ∧ u.orcPc = .p0))
end

