-- ==== Sys2Proof/Laws/Memory.lean ====
section
/-! SUPPORT. The laws of byte arrays: a read after a write, and the canonical form that every operation keeps. -/

namespace Sys2Proof.Machine

/-- A canonical list above `lo` is canonical above anything lower. -/
theorem Memory.wfAbove_mono {m : Memory} {lo lo' : Nat} (h : m.wfAbove lo = true) (hle : lo' ≤ lo) :
    m.wfAbove lo' = true := by
  cases m with
  | nil => rfl
  | cons c rest =>
    obtain ⟨k, v⟩ := c
    simp only [Memory.wfAbove, Bool.and_eq_true, decide_eq_true_eq] at h ⊢
    exact ⟨⟨by omega, h.1.2⟩, h.2⟩

/-- An index below every listed one reads as unlisted. -/
theorem Memory.read_below {m : Memory} {lo a : Nat} (h : m.wfAbove lo = true) (ha : a < lo) :
    m.read a = Memory.unlisted := by
  induction m generalizing lo with
  | nil => rfl
  | cons c rest ih =>
    obtain ⟨k, v⟩ := c
    simp only [Memory.wfAbove, Bool.and_eq_true, decide_eq_true_eq] at h
    have hne : k ≠ a := by omega
    simp only [Memory.read, hne, if_false]
    exact ih h.2 (by omega)

/-- Putting a cell before a list whose indices are all above it reads as expected. -/
theorem Memory.read_consCell {m : Memory} {a : Nat} {v : Byte} (h : m.wfAbove (a + 1) = true) (b : Nat) :
    (Memory.consCell a v m).read b = if b = a then v else m.read b := by
  by_cases hv : v = Memory.unlisted
  · subst hv
    by_cases hb : b = a
    · subst hb
      simpa [Memory.consCell] using Memory.read_below h (Nat.lt_succ_self b)
    · simp [Memory.consCell, hb]
  · by_cases hb : b = a
    · subst hb
      simp [Memory.consCell, hv, Memory.read]
    · simp [Memory.consCell, hv, Memory.read, hb, Ne.symm hb]

/-- Putting a cell before a canonical list above it keeps the canonical form. -/
theorem Memory.wfAbove_consCell {m : Memory} {lo a : Nat} {v : Byte} (hlo : lo ≤ a)
    (h : m.wfAbove (a + 1) = true) : (Memory.consCell a v m).wfAbove lo = true := by
  by_cases hv : v = Memory.unlisted
  · simpa [Memory.consCell, hv] using Memory.wfAbove_mono h (by omega)
  · simp [Memory.consCell, hv, Memory.wfAbove, hlo, h]

/-- A write at or above `lo` keeps a list canonical above `lo`. -/
theorem Memory.wfAbove_write {m : Memory} {lo a : Nat} (v : Byte) (h : m.wfAbove lo = true) (ha : lo ≤ a) :
    (m.write a v).wfAbove lo = true := by
  induction m generalizing lo with
  | nil => exact Memory.wfAbove_consCell ha rfl
  | cons c rest ih =>
    obtain ⟨k, w⟩ := c
    have h' := h
    simp only [Memory.wfAbove, Bool.and_eq_true, decide_eq_true_eq] at h'
    simp only [Memory.write]
    split
    · refine Memory.wfAbove_consCell ha ?_
      simp only [Memory.wfAbove, Bool.and_eq_true, decide_eq_true_eq]
      exact ⟨⟨by omega, h'.1.2⟩, h'.2⟩
    · split
      · next heq => subst heq; exact Memory.wfAbove_consCell ha h'.2
      · simp only [Memory.wfAbove, Bool.and_eq_true, decide_eq_true_eq]
        exact ⟨h'.1, ih h'.2 (by omega)⟩

/-- A read after a write gives the value written there, and the old value anywhere else. -/
theorem Memory.read_write_above {m : Memory} {lo : Nat} (h : m.wfAbove lo = true) (a b : Nat) (v : Byte) :
    (m.write a v).read b = if b = a then v else m.read b := by
  induction m generalizing lo with
  | nil => exact Memory.read_consCell (m := []) rfl b
  | cons c rest ih =>
    obtain ⟨k, w⟩ := c
    have h' := h
    simp only [Memory.wfAbove, Bool.and_eq_true, decide_eq_true_eq] at h'
    simp only [Memory.write]
    split
    · next hlt =>
      refine Memory.read_consCell ?_ b
      simp only [Memory.wfAbove, Bool.and_eq_true, decide_eq_true_eq]
      exact ⟨⟨by omega, h'.1.2⟩, h'.2⟩
    · split
      · next heq =>
        subst heq
        rw [Memory.read_consCell h'.2]
        by_cases hb : b = a
        · simp [hb]
        · simp [hb, Memory.read, Ne.symm hb]
      · next hne =>
        simp only [Memory.read]
        rw [ih h'.2]
        by_cases hb : b = a
        · have hk : k ≠ b := fun e => hne (by rw [e, hb])
          rw [if_neg hk, if_pos hb, if_pos hb]
        · simp [hb]

/-- A write keeps the canonical form. -/
theorem Memory.wf_write {m : Memory} (h : m.wf = true) (a : Nat) (v : Byte) : (m.write a v).wf = true :=
  Memory.wfAbove_write v h (Nat.zero_le a)

/-- A read after a write. -/
theorem Memory.read_write {m : Memory} (h : m.wf = true) (a b : Nat) (v : Byte) :
    (m.write a v).read b = if b = a then v else m.read b :=
  Memory.read_write_above h a b v

/-- Writing a string of bytes keeps the canonical form. -/
theorem Memory.wf_writeBytes {m : Memory} (h : m.wf = true) (a : Nat) (bs : List Byte) :
    (m.writeBytes a bs).wf = true := by
  induction bs generalizing m a with
  | nil => exact h
  | cons b bs ih => exact ih (Memory.wf_write h a b) (a + 1)

/-- A read after writing a string of bytes: the bytes where they were put, the old values anywhere else. -/
theorem Memory.read_writeBytes {m : Memory} (h : m.wf = true) (a : Nat) (bs : List Byte) (j : Nat) :
    (m.writeBytes a bs).read j = if a ≤ j ∧ j < a + bs.length then bs.getD (j - a) 0 else m.read j := by
  induction bs generalizing m a with
  | nil =>
    have hno : ¬ (a ≤ j ∧ j < a + 0) := by omega
    simp only [Memory.writeBytes, List.length_nil, hno, if_false]
  | cons b bs ih =>
    simp only [Memory.writeBytes, ih (Memory.wf_write h a b) (a + 1), List.length_cons, Memory.read_write h a j b]
    by_cases hj : j = a
    · subst hj
      simp
    · by_cases hin : a + 1 ≤ j ∧ j < a + 1 + bs.length
      · have hin' : a ≤ j ∧ j < a + (bs.length + 1) := by omega
        obtain ⟨d, hd⟩ : ∃ d, j - a = d + 1 := ⟨j - a - 1, by omega⟩
        have hd' : j - (a + 1) = d := by omega
        rw [if_pos hin, if_pos hin', hd, hd']
        rfl
      · have hin' : ¬ (a ≤ j ∧ j < a + (bs.length + 1)) := by omega
        rw [if_neg hin, if_neg hin', if_neg hj]

/-- The cells of a list after a cell is put before it. -/
theorem Memory.mem_consCell {m : Memory} {a : Nat} {v : Byte} {c : Host.Cell} (h : c ∈ Memory.consCell a v m) :
    c ∈ m ∨ c.1 = a := by
  unfold Memory.consCell at h
  split at h
  · exact .inl h
  · rcases List.mem_cons.1 h with rfl | h
    · exact .inr rfl
    · exact .inl h

/-- The indices of a list after a write: the old ones and the written one. -/
theorem Memory.mem_write {m : Memory} {a : Nat} {v : Byte} {c : Host.Cell} (h : c ∈ m.write a v) :
    c ∈ m ∨ c.1 = a := by
  induction m with
  | nil => exact Memory.mem_consCell h
  | cons d rest ih =>
    obtain ⟨k, w⟩ := d
    simp only [Memory.write] at h
    split at h
    · exact Memory.mem_consCell h
    · split at h
      · exact (Memory.mem_consCell h).imp_left (List.mem_cons_of_mem _)
      · rcases List.mem_cons.1 h with rfl | h
        · exact .inl List.mem_cons_self
        · exact (ih h).imp_left (List.mem_cons_of_mem _)

/-- The indices of a list after writing a string of bytes: the old ones and those of the bytes. -/
theorem Memory.mem_writeBytes {m : Memory} {a : Nat} {bs : List Byte} {c : Host.Cell}
    (h : c ∈ m.writeBytes a bs) : c ∈ m ∨ (a ≤ c.1 ∧ c.1 < a + bs.length) := by
  induction bs generalizing m a with
  | nil => exact .inl h
  | cons b bs ih =>
    rcases ih h with h | h
    · rcases Memory.mem_write h with h | h
      · exact .inl h
      · exact .inr (by simp only [List.length_cons]; omega)
    · exact .inr (by simp only [List.length_cons]; omega)

/-- How many bytes a read of a string gives. -/
@[simp] theorem Memory.readBytes_length (m : Memory) (a n : Nat) : (m.readBytes a n).length = n := by
  simp [Memory.readBytes]

/-- Byte `j` of a read of a string. -/
theorem Memory.readBytes_getD (m : Memory) (a n j : Nat) (hj : j < n) :
    (m.readBytes a n).getD j 0 = m.read (a + j) := by
  simp [Memory.readBytes, hj]

end Sys2Proof.Machine
end

