-- ==== Sys2Proof/Laws/State.lean ====
section
/-! SUPPORT. One lemma per field and per shared update of the state, each true by unfolding, so that no later proof unfolds
a record update. -/

namespace Sys2Proof.Machine

/-! ### emit -/

@[simp] theorem emit_sa (es : List Event) (s : State) : (emit es s).sa = s.sa := rfl
@[simp] theorem emit_sb (es : List Event) (s : State) : (emit es s).sb = s.sb := rfl
@[simp] theorem emit_sx (es : List Event) (s : State) : (emit es s).sx = s.sx := rfl
@[simp] theorem emit_ava (es : List Event) (s : State) : (emit es s).ava = s.ava := rfl
@[simp] theorem emit_avb (es : List Event) (s : State) : (emit es s).avb = s.avb := rfl
@[simp] theorem emit_avx (es : List Event) (s : State) : (emit es s).avx = s.avx := rfl
@[simp] theorem emit_cmdOp (es : List Event) (s : State) : (emit es s).cmdOp = s.cmdOp := rfl
@[simp] theorem emit_cmdArg (es : List Event) (s : State) : (emit es s).cmdArg = s.cmdArg := rfl
@[simp] theorem emit_orcPc (es : List Event) (s : State) : (emit es s).orcPc = s.orcPc := rfl
@[simp] theorem emit_status (es : List Event) (s : State) : (emit es s).status = s.status := rfl
@[simp] theorem emit_fatal (es : List Event) (s : State) : (emit es s).fatal = s.fatal := rfl
@[simp] theorem emit_fatalCode (es : List Event) (s : State) : (emit es s).fatalCode = s.fatalCode := rfl
@[simp] theorem emit_off (es : List Event) (s : State) : (emit es s).off = s.off := rfl
@[simp] theorem emit_rotIdx (es : List Event) (s : State) : (emit es s).rotIdx = s.rotIdx := rfl
@[simp] theorem emit_cntA (es : List Event) (s : State) : (emit es s).cntA = s.cntA := rfl
@[simp] theorem emit_cntB (es : List Event) (s : State) : (emit es s).cntB = s.cntB := rfl
@[simp] theorem emit_cntX (es : List Event) (s : State) : (emit es s).cntX = s.cntX := rfl
@[simp] theorem emit_att (es : List Event) (s : State) : (emit es s).att = s.att := rfl
@[simp] theorem emit_nfail (es : List Event) (s : State) : (emit es s).nfail = s.nfail := rfl
@[simp] theorem emit_rxLen (es : List Event) (s : State) : (emit es s).rxLen = s.rxLen := rfl
@[simp] theorem emit_band (es : List Event) (s : State) : (emit es s).band = s.band := rfl
@[simp] theorem emit_run (es : List Event) (s : State) : (emit es s).run = s.run := rfl
@[simp] theorem emit_histA (es : List Event) (s : State) : (emit es s).histA = s.histA := rfl
@[simp] theorem emit_histB (es : List Event) (s : State) : (emit es s).histB = s.histB := rfl
@[simp] theorem emit_histX (es : List Event) (s : State) : (emit es s).histX = s.histX := rfl
@[simp] theorem emit_slots (es : List Event) (s : State) : (emit es s).slots = s.slots := rfl
@[simp] theorem emit_rxBuf (es : List Event) (s : State) : (emit es s).rxBuf = s.rxBuf := rfl
@[simp] theorem emit_txBuf (es : List Event) (s : State) : (emit es s).txBuf = s.txBuf := rfl
@[simp] theorem emit_ev (es : List Event) (s : State) : (emit es s).ev = s.ev ++ es := rfl
@[simp] theorem emit_cfg (es : List Event) (s : State) : (emit es s).cfg = s.cfg := rfl
@[simp] theorem emit_host (es : List Event) (s : State) : (emit es s).host = s.host := rfl

/-! ### complete -/

@[simp] theorem complete_sa (s : State) : (complete s).sa = s.sa := rfl
@[simp] theorem complete_sb (s : State) : (complete s).sb = s.sb := rfl
@[simp] theorem complete_sx (s : State) : (complete s).sx = s.sx := rfl
@[simp] theorem complete_ava (s : State) : (complete s).ava = s.ava := rfl
@[simp] theorem complete_avb (s : State) : (complete s).avb = s.avb := rfl
@[simp] theorem complete_avx (s : State) : (complete s).avx = s.avx := rfl
@[simp] theorem complete_cmdOp (s : State) : (complete s).cmdOp = s.cmdOp := rfl
@[simp] theorem complete_cmdArg (s : State) : (complete s).cmdArg = s.cmdArg := rfl
@[simp] theorem complete_orcPc (s : State) : (complete s).orcPc = s.orcPc := rfl
@[simp] theorem complete_status (s : State) : (complete s).status = .ok := rfl
@[simp] theorem complete_fatal (s : State) : (complete s).fatal = s.fatal := rfl
@[simp] theorem complete_fatalCode (s : State) : (complete s).fatalCode = s.fatalCode := rfl
@[simp] theorem complete_off (s : State) : (complete s).off = s.off := rfl
@[simp] theorem complete_rotIdx (s : State) : (complete s).rotIdx = s.rotIdx := rfl
@[simp] theorem complete_cntA (s : State) : (complete s).cntA = s.cntA := rfl
@[simp] theorem complete_cntB (s : State) : (complete s).cntB = s.cntB := rfl
@[simp] theorem complete_cntX (s : State) : (complete s).cntX = s.cntX := rfl
@[simp] theorem complete_att (s : State) : (complete s).att = s.att := rfl
@[simp] theorem complete_nfail (s : State) : (complete s).nfail = s.nfail := rfl
@[simp] theorem complete_rxLen (s : State) : (complete s).rxLen = s.rxLen := rfl
@[simp] theorem complete_band (s : State) : (complete s).band = s.band := rfl
@[simp] theorem complete_run (s : State) : (complete s).run = s.run := rfl
@[simp] theorem complete_histA (s : State) : (complete s).histA = s.histA := rfl
@[simp] theorem complete_histB (s : State) : (complete s).histB = s.histB := rfl
@[simp] theorem complete_histX (s : State) : (complete s).histX = s.histX := rfl
@[simp] theorem complete_slots (s : State) : (complete s).slots = s.slots := rfl
@[simp] theorem complete_rxBuf (s : State) : (complete s).rxBuf = s.rxBuf := rfl
@[simp] theorem complete_txBuf (s : State) : (complete s).txBuf = s.txBuf := rfl
@[simp] theorem complete_ev (s : State) : (complete s).ev = s.ev := rfl
@[simp] theorem complete_cfg (s : State) : (complete s).cfg = s.cfg := rfl
@[simp] theorem complete_host (s : State) : (complete s).host = s.host := rfl

/-! ### raise -/

@[simp] theorem raise_sa (op : Byte) (st : Status) (s : State) : (raise op st s).sa = s.sa := rfl
@[simp] theorem raise_sb (op : Byte) (st : Status) (s : State) : (raise op st s).sb = s.sb := rfl
@[simp] theorem raise_sx (op : Byte) (st : Status) (s : State) : (raise op st s).sx = s.sx := rfl
@[simp] theorem raise_ava (op : Byte) (st : Status) (s : State) : (raise op st s).ava = s.ava := rfl
@[simp] theorem raise_avb (op : Byte) (st : Status) (s : State) : (raise op st s).avb = s.avb := rfl
@[simp] theorem raise_avx (op : Byte) (st : Status) (s : State) : (raise op st s).avx = s.avx := rfl
@[simp] theorem raise_cmdOp (op : Byte) (st : Status) (s : State) : (raise op st s).cmdOp = s.cmdOp := rfl
@[simp] theorem raise_cmdArg (op : Byte) (st : Status) (s : State) : (raise op st s).cmdArg = s.cmdArg := rfl
@[simp] theorem raise_orcPc (op : Byte) (st : Status) (s : State) : (raise op st s).orcPc = s.orcPc := rfl
@[simp] theorem raise_status (op : Byte) (st : Status) (s : State) : (raise op st s).status = st := rfl
@[simp] theorem raise_fatal (op : Byte) (st : Status) (s : State) : (raise op st s).fatal = fatalAfter st s.fatal := rfl
@[simp] theorem raise_fatalCode (op : Byte) (st : Status) (s : State) : (raise op st s).fatalCode = fatalCodeAfter st s.fatal s.fatalCode := rfl
@[simp] theorem raise_off (op : Byte) (st : Status) (s : State) : (raise op st s).off = s.off := rfl
@[simp] theorem raise_rotIdx (op : Byte) (st : Status) (s : State) : (raise op st s).rotIdx = s.rotIdx := rfl
@[simp] theorem raise_cntA (op : Byte) (st : Status) (s : State) : (raise op st s).cntA = s.cntA := rfl
@[simp] theorem raise_cntB (op : Byte) (st : Status) (s : State) : (raise op st s).cntB = s.cntB := rfl
@[simp] theorem raise_cntX (op : Byte) (st : Status) (s : State) : (raise op st s).cntX = s.cntX := rfl
@[simp] theorem raise_att (op : Byte) (st : Status) (s : State) : (raise op st s).att = s.att := rfl
@[simp] theorem raise_nfail (op : Byte) (st : Status) (s : State) : (raise op st s).nfail = s.nfail := rfl
@[simp] theorem raise_rxLen (op : Byte) (st : Status) (s : State) : (raise op st s).rxLen = s.rxLen := rfl
@[simp] theorem raise_band (op : Byte) (st : Status) (s : State) : (raise op st s).band = s.band := rfl
@[simp] theorem raise_run (op : Byte) (st : Status) (s : State) : (raise op st s).run = s.run := rfl
@[simp] theorem raise_histA (op : Byte) (st : Status) (s : State) : (raise op st s).histA = s.histA := rfl
@[simp] theorem raise_histB (op : Byte) (st : Status) (s : State) : (raise op st s).histB = s.histB := rfl
@[simp] theorem raise_histX (op : Byte) (st : Status) (s : State) : (raise op st s).histX = s.histX := rfl
@[simp] theorem raise_slots (op : Byte) (st : Status) (s : State) : (raise op st s).slots = s.slots := rfl
@[simp] theorem raise_rxBuf (op : Byte) (st : Status) (s : State) : (raise op st s).rxBuf = s.rxBuf := rfl
@[simp] theorem raise_txBuf (op : Byte) (st : Status) (s : State) : (raise op st s).txBuf = s.txBuf := rfl
@[simp] theorem raise_ev (op : Byte) (st : Status) (s : State) : (raise op st s).ev = s.ev ++ [.report op st] := rfl
@[simp] theorem raise_cfg (op : Byte) (st : Status) (s : State) : (raise op st s).cfg = s.cfg := rfl
@[simp] theorem raise_host (op : Byte) (st : Status) (s : State) : (raise op st s).host = s.host := rfl

/-! ### State.writeRecord -/

@[simp] theorem State.writeRecord_sa (k : Fin 2) (rec : Vector Byte 25) (s : State) : (s.writeRecord k rec).sa = s.sa := rfl
@[simp] theorem State.writeRecord_sb (k : Fin 2) (rec : Vector Byte 25) (s : State) : (s.writeRecord k rec).sb = s.sb := rfl
@[simp] theorem State.writeRecord_sx (k : Fin 2) (rec : Vector Byte 25) (s : State) : (s.writeRecord k rec).sx = s.sx := rfl
@[simp] theorem State.writeRecord_ava (k : Fin 2) (rec : Vector Byte 25) (s : State) : (s.writeRecord k rec).ava = s.ava := rfl
@[simp] theorem State.writeRecord_avb (k : Fin 2) (rec : Vector Byte 25) (s : State) : (s.writeRecord k rec).avb = s.avb := rfl
@[simp] theorem State.writeRecord_avx (k : Fin 2) (rec : Vector Byte 25) (s : State) : (s.writeRecord k rec).avx = s.avx := rfl
@[simp] theorem State.writeRecord_cmdOp (k : Fin 2) (rec : Vector Byte 25) (s : State) : (s.writeRecord k rec).cmdOp = s.cmdOp := rfl
@[simp] theorem State.writeRecord_cmdArg (k : Fin 2) (rec : Vector Byte 25) (s : State) : (s.writeRecord k rec).cmdArg = s.cmdArg := rfl
@[simp] theorem State.writeRecord_orcPc (k : Fin 2) (rec : Vector Byte 25) (s : State) : (s.writeRecord k rec).orcPc = s.orcPc := rfl
@[simp] theorem State.writeRecord_status (k : Fin 2) (rec : Vector Byte 25) (s : State) : (s.writeRecord k rec).status = s.status := rfl
@[simp] theorem State.writeRecord_fatal (k : Fin 2) (rec : Vector Byte 25) (s : State) : (s.writeRecord k rec).fatal = s.fatal := rfl
@[simp] theorem State.writeRecord_fatalCode (k : Fin 2) (rec : Vector Byte 25) (s : State) : (s.writeRecord k rec).fatalCode = s.fatalCode := rfl
@[simp] theorem State.writeRecord_off (k : Fin 2) (rec : Vector Byte 25) (s : State) : (s.writeRecord k rec).off = s.off := rfl
@[simp] theorem State.writeRecord_rotIdx (k : Fin 2) (rec : Vector Byte 25) (s : State) : (s.writeRecord k rec).rotIdx = s.rotIdx := rfl
@[simp] theorem State.writeRecord_cntA (k : Fin 2) (rec : Vector Byte 25) (s : State) : (s.writeRecord k rec).cntA = s.cntA := rfl
@[simp] theorem State.writeRecord_cntB (k : Fin 2) (rec : Vector Byte 25) (s : State) : (s.writeRecord k rec).cntB = s.cntB := rfl
@[simp] theorem State.writeRecord_cntX (k : Fin 2) (rec : Vector Byte 25) (s : State) : (s.writeRecord k rec).cntX = s.cntX := rfl
@[simp] theorem State.writeRecord_att (k : Fin 2) (rec : Vector Byte 25) (s : State) : (s.writeRecord k rec).att = s.att := rfl
@[simp] theorem State.writeRecord_nfail (k : Fin 2) (rec : Vector Byte 25) (s : State) : (s.writeRecord k rec).nfail = s.nfail := rfl
@[simp] theorem State.writeRecord_rxLen (k : Fin 2) (rec : Vector Byte 25) (s : State) : (s.writeRecord k rec).rxLen = s.rxLen := rfl
@[simp] theorem State.writeRecord_band (k : Fin 2) (rec : Vector Byte 25) (s : State) : (s.writeRecord k rec).band = s.band := rfl
@[simp] theorem State.writeRecord_run (k : Fin 2) (rec : Vector Byte 25) (s : State) : (s.writeRecord k rec).run = s.run := rfl
@[simp] theorem State.writeRecord_histA (k : Fin 2) (rec : Vector Byte 25) (s : State) : (s.writeRecord k rec).histA = s.histA := rfl
@[simp] theorem State.writeRecord_histB (k : Fin 2) (rec : Vector Byte 25) (s : State) : (s.writeRecord k rec).histB = s.histB := rfl
@[simp] theorem State.writeRecord_histX (k : Fin 2) (rec : Vector Byte 25) (s : State) : (s.writeRecord k rec).histX = s.histX := rfl
@[simp] theorem State.writeRecord_slots (k : Fin 2) (rec : Vector Byte 25) (s : State) : (s.writeRecord k rec).slots = s.slots.set k { s.slot k with record := rec } := rfl
@[simp] theorem State.writeRecord_rxBuf (k : Fin 2) (rec : Vector Byte 25) (s : State) : (s.writeRecord k rec).rxBuf = s.rxBuf := rfl
@[simp] theorem State.writeRecord_txBuf (k : Fin 2) (rec : Vector Byte 25) (s : State) : (s.writeRecord k rec).txBuf = s.txBuf := rfl
@[simp] theorem State.writeRecord_ev (k : Fin 2) (rec : Vector Byte 25) (s : State) : (s.writeRecord k rec).ev = s.ev := rfl
@[simp] theorem State.writeRecord_cfg (k : Fin 2) (rec : Vector Byte 25) (s : State) : (s.writeRecord k rec).cfg = s.cfg := rfl
@[simp] theorem State.writeRecord_host (k : Fin 2) (rec : Vector Byte 25) (s : State) : (s.writeRecord k rec).host = s.host := rfl

/-! ### sequence -/

@[simp] theorem sequence_sa (pc : OrcPc) (a : Fin 61) (s : State) : (sequence pc a s).sa = s.sa := rfl
@[simp] theorem sequence_sb (pc : OrcPc) (a : Fin 61) (s : State) : (sequence pc a s).sb = s.sb := rfl
@[simp] theorem sequence_sx (pc : OrcPc) (a : Fin 61) (s : State) : (sequence pc a s).sx = s.sx := rfl
@[simp] theorem sequence_ava (pc : OrcPc) (a : Fin 61) (s : State) : (sequence pc a s).ava = s.ava := rfl
@[simp] theorem sequence_avb (pc : OrcPc) (a : Fin 61) (s : State) : (sequence pc a s).avb = s.avb := rfl
@[simp] theorem sequence_avx (pc : OrcPc) (a : Fin 61) (s : State) : (sequence pc a s).avx = s.avx := rfl
@[simp] theorem sequence_cmdOp (pc : OrcPc) (a : Fin 61) (s : State) : (sequence pc a s).cmdOp = s.cmdOp := rfl
@[simp] theorem sequence_cmdArg (pc : OrcPc) (a : Fin 61) (s : State) : (sequence pc a s).cmdArg = s.cmdArg := rfl
@[simp] theorem sequence_orcPc (pc : OrcPc) (a : Fin 61) (s : State) : (sequence pc a s).orcPc = if s.fatal then .halt else orcNext pc (s.status == .ok) a := rfl
@[simp] theorem sequence_status (pc : OrcPc) (a : Fin 61) (s : State) : (sequence pc a s).status = s.status := rfl
@[simp] theorem sequence_fatal (pc : OrcPc) (a : Fin 61) (s : State) : (sequence pc a s).fatal = s.fatal := rfl
@[simp] theorem sequence_fatalCode (pc : OrcPc) (a : Fin 61) (s : State) : (sequence pc a s).fatalCode = s.fatalCode := rfl
@[simp] theorem sequence_off (pc : OrcPc) (a : Fin 61) (s : State) : (sequence pc a s).off = s.off := rfl
@[simp] theorem sequence_rotIdx (pc : OrcPc) (a : Fin 61) (s : State) : (sequence pc a s).rotIdx = s.rotIdx := rfl
@[simp] theorem sequence_cntA (pc : OrcPc) (a : Fin 61) (s : State) : (sequence pc a s).cntA = s.cntA := rfl
@[simp] theorem sequence_cntB (pc : OrcPc) (a : Fin 61) (s : State) : (sequence pc a s).cntB = s.cntB := rfl
@[simp] theorem sequence_cntX (pc : OrcPc) (a : Fin 61) (s : State) : (sequence pc a s).cntX = s.cntX := rfl
@[simp] theorem sequence_att (pc : OrcPc) (a : Fin 61) (s : State) : (sequence pc a s).att = attAtEnd pc (orcNext pc (s.status == .ok) a) a := rfl
@[simp] theorem sequence_nfail (pc : OrcPc) (a : Fin 61) (s : State) : (sequence pc a s).nfail = s.nfail := rfl
@[simp] theorem sequence_rxLen (pc : OrcPc) (a : Fin 61) (s : State) : (sequence pc a s).rxLen = s.rxLen := rfl
@[simp] theorem sequence_band (pc : OrcPc) (a : Fin 61) (s : State) : (sequence pc a s).band = s.band := rfl
@[simp] theorem sequence_run (pc : OrcPc) (a : Fin 61) (s : State) : (sequence pc a s).run = s.run := rfl
@[simp] theorem sequence_histA (pc : OrcPc) (a : Fin 61) (s : State) : (sequence pc a s).histA = s.histA := rfl
@[simp] theorem sequence_histB (pc : OrcPc) (a : Fin 61) (s : State) : (sequence pc a s).histB = s.histB := rfl
@[simp] theorem sequence_histX (pc : OrcPc) (a : Fin 61) (s : State) : (sequence pc a s).histX = s.histX := rfl
@[simp] theorem sequence_slots (pc : OrcPc) (a : Fin 61) (s : State) : (sequence pc a s).slots = s.slots := rfl
@[simp] theorem sequence_rxBuf (pc : OrcPc) (a : Fin 61) (s : State) : (sequence pc a s).rxBuf = s.rxBuf := rfl
@[simp] theorem sequence_txBuf (pc : OrcPc) (a : Fin 61) (s : State) : (sequence pc a s).txBuf = s.txBuf := rfl
@[simp] theorem sequence_ev (pc : OrcPc) (a : Fin 61) (s : State) : (sequence pc a s).ev = s.ev := rfl
@[simp] theorem sequence_cfg (pc : OrcPc) (a : Fin 61) (s : State) : (sequence pc a s).cfg = s.cfg := rfl
@[simp] theorem sequence_host (pc : OrcPc) (a : Fin 61) (s : State) : (sequence pc a s).host = s.host := rfl

/-! ### afterTurn -/

@[simp] theorem afterTurn_sa (s : State) : (afterTurn s).sa = s.sa := rfl
@[simp] theorem afterTurn_sb (s : State) : (afterTurn s).sb = s.sb := rfl
@[simp] theorem afterTurn_sx (s : State) : (afterTurn s).sx = s.sx := rfl
@[simp] theorem afterTurn_ava (s : State) : (afterTurn s).ava = s.ava := rfl
@[simp] theorem afterTurn_avb (s : State) : (afterTurn s).avb = s.avb := rfl
@[simp] theorem afterTurn_avx (s : State) : (afterTurn s).avx = s.avx := rfl
@[simp] theorem afterTurn_cmdOp (s : State) : (afterTurn s).cmdOp = s.cmdOp := rfl
@[simp] theorem afterTurn_cmdArg (s : State) : (afterTurn s).cmdArg = s.cmdArg := rfl
@[simp] theorem afterTurn_orcPc (s : State) : (afterTurn s).orcPc = s.orcPc := rfl
@[simp] theorem afterTurn_status (s : State) : (afterTurn s).status = s.status := rfl
@[simp] theorem afterTurn_fatal (s : State) : (afterTurn s).fatal = s.fatal := rfl
@[simp] theorem afterTurn_fatalCode (s : State) : (afterTurn s).fatalCode = s.fatalCode := rfl
@[simp] theorem afterTurn_off (s : State) : (afterTurn s).off = s.off := rfl
@[simp] theorem afterTurn_rotIdx (s : State) : (afterTurn s).rotIdx = s.rotIdx := rfl
@[simp] theorem afterTurn_cntA (s : State) : (afterTurn s).cntA = s.cntA := rfl
@[simp] theorem afterTurn_cntB (s : State) : (afterTurn s).cntB = s.cntB := rfl
@[simp] theorem afterTurn_cntX (s : State) : (afterTurn s).cntX = s.cntX := rfl
@[simp] theorem afterTurn_att (s : State) : (afterTurn s).att = s.att := rfl
@[simp] theorem afterTurn_nfail (s : State) : (afterTurn s).nfail = s.nfail := rfl
@[simp] theorem afterTurn_rxLen (s : State) : (afterTurn s).rxLen = s.rxLen := rfl
@[simp] theorem afterTurn_band (s : State) : (afterTurn s).band = s.band := rfl
@[simp] theorem afterTurn_run (s : State) : (afterTurn s).run = s.run := rfl
@[simp] theorem afterTurn_histA (s : State) : (afterTurn s).histA = s.histA := rfl
@[simp] theorem afterTurn_histB (s : State) : (afterTurn s).histB = s.histB := rfl
@[simp] theorem afterTurn_histX (s : State) : (afterTurn s).histX = s.histX := rfl
@[simp] theorem afterTurn_slots (s : State) : (afterTurn s).slots = s.slots := rfl
@[simp] theorem afterTurn_rxBuf (s : State) : (afterTurn s).rxBuf = s.rxBuf := rfl
@[simp] theorem afterTurn_txBuf (s : State) : (afterTurn s).txBuf = s.txBuf := rfl
@[simp] theorem afterTurn_ev (s : State) : (afterTurn s).ev = s.ev := rfl
@[simp] theorem afterTurn_cfg (s : State) : (afterTurn s).cfg = s.cfg := rfl
@[simp] theorem afterTurn_host (s : State) : (afterTurn s).host = (s.host.drawTurn (sequencerReady s)).2 := rfl

/-! ### Reading the state through its accessors -/

@[simp] theorem afterTurn_slot (s : State) (k : Fin 2) : (afterTurn s).slot k = s.slot k := rfl
@[simp] theorem emit_slot (es : List Event) (s : State) (k : Fin 2) : (emit es s).slot k = s.slot k := rfl
@[simp] theorem complete_slot (s : State) (k : Fin 2) : (complete s).slot k = s.slot k := rfl
@[simp] theorem raise_slot (op : Byte) (st : Status) (s : State) (k : Fin 2) : (raise op st s).slot k = s.slot k := rfl
@[simp] theorem sequence_slot (pc : OrcPc) (a : Fin 61) (s : State) (k : Fin 2) :
    (sequence pc a s).slot k = s.slot k := rfl

/-- The slot that a record is written to takes it and keeps its header; the other slot stays. -/
theorem State.writeRecord_slot (s : State) (k j : Fin 2) (rec : Vector Byte 25) :
    (s.writeRecord k rec).slot j = if k = j then { s.slot k with record := rec } else s.slot j := by
  simp [State.slot, State.writeRecord, Vector.getElem_set, Fin.ext_iff]

/-- No slot's header changes when a record is written. -/
@[simp] theorem State.writeRecord_header (s : State) (k j : Fin 2) (rec : Vector Byte 25) :
    ((s.writeRecord k rec).slot j).header = (s.slot j).header := by
  rw [State.writeRecord_slot]
  split <;> simp_all

/-! ### Reset -/


@[simp] theorem afterReset_orcPc (cfg : Params) (run : Bool) (host : Inputs) :
    (State.afterReset cfg run host).orcPc = if run then .p0 else .idle := rfl
@[simp] theorem afterReset_status (cfg : Params) (run : Bool) (host : Inputs) :
    (State.afterReset cfg run host).status = .ok := rfl
@[simp] theorem afterReset_fatal (cfg : Params) (run : Bool) (host : Inputs) :
    (State.afterReset cfg run host).fatal = false := rfl
@[simp] theorem afterReset_fatalCode (cfg : Params) (run : Bool) (host : Inputs) :
    (State.afterReset cfg run host).fatalCode = .ok := rfl
@[simp] theorem afterReset_off (cfg : Params) (run : Bool) (host : Inputs) :
    (State.afterReset cfg run host).off = 0 := rfl
@[simp] theorem afterReset_rotIdx (cfg : Params) (run : Bool) (host : Inputs) :
    (State.afterReset cfg run host).rotIdx = 0 := rfl
@[simp] theorem afterReset_cntA (cfg : Params) (run : Bool) (host : Inputs) :
    (State.afterReset cfg run host).cntA = 0 := rfl
@[simp] theorem afterReset_cntB (cfg : Params) (run : Bool) (host : Inputs) :
    (State.afterReset cfg run host).cntB = 0 := rfl
@[simp] theorem afterReset_cntX (cfg : Params) (run : Bool) (host : Inputs) :
    (State.afterReset cfg run host).cntX = 0 := rfl
@[simp] theorem afterReset_att (cfg : Params) (run : Bool) (host : Inputs) :
    (State.afterReset cfg run host).att = 0 := rfl
@[simp] theorem afterReset_nfail (cfg : Params) (run : Bool) (host : Inputs) :
    (State.afterReset cfg run host).nfail = 0 := rfl
@[simp] theorem afterReset_rxLen (cfg : Params) (run : Bool) (host : Inputs) :
    (State.afterReset cfg run host).rxLen = 0 := rfl
@[simp] theorem afterReset_rxBuf (cfg : Params) (run : Bool) (host : Inputs) :
    (State.afterReset cfg run host).rxBuf = [] := rfl
@[simp] theorem afterReset_ev (cfg : Params) (run : Bool) (host : Inputs) :
    (State.afterReset cfg run host).ev = [] := rfl
@[simp] theorem afterReset_cfg (cfg : Params) (run : Bool) (host : Inputs) :
    (State.afterReset cfg run host).cfg = cfg := rfl
@[simp] theorem afterReset_host (cfg : Params) (run : Bool) (host : Inputs) :
    (State.afterReset cfg run host).host = host := rfl
@[simp] theorem afterReset_run (cfg : Params) (run : Bool) (host : Inputs) :
    (State.afterReset cfg run host).run = run := rfl

/-- Both slots after reset: the header and 25 zero bytes (R50). -/
@[simp] theorem afterReset_slot (cfg : Params) (run : Bool) (host : Inputs) (k : Fin 2) :
    (State.afterReset cfg run host).slot k = ⟨cfg.hdr, zeroRecord⟩ := by
  simp [State.slot, State.afterReset]

end Sys2Proof.Machine
end

