-- ==== Sys2Proof/Laws/Ops.lean ====
section
/-! SUPPORT. What each shared operation can do, said once: the free inputs, the host primitives, the meanings as one
state function, issuing a word, and the turn that a step takes. -/

namespace Sys2Proof.Machine

/-! ### Free inputs -/

theorem drawPulse_cons {h : Inputs} {d : Nat} {rest : List Nat} (e : h.pulses = d :: rest) :
    h.drawPulse = (d, { h with pulses := rest }) := by simp [Inputs.drawPulse, e]

theorem drawRead_cons {h : Inputs} {r : ReadAnswer} {rest : List ReadAnswer} (e : h.reads = r :: rest) :
    h.drawRead = (r, { h with reads := rest }) := by simp [Inputs.drawRead, e]

theorem drawWrite_cons {h : Inputs} {r : WriteAnswer} {rest : List WriteAnswer} (e : h.writes = r :: rest) :
    h.drawWrite = (r, { h with writes := rest }) := by simp [Inputs.drawWrite, e]

theorem drawAux_cons {h : Inputs} {v : Byte} {rest : List Byte} (e : h.auxs = v :: rest) :
    h.drawAux = (v, { h with auxs := rest }) := by simp [Inputs.drawAux, e]

theorem drawTurn_cons {h : Inputs} {t : Turn} {rest : List Turn} (ready : Bool) (e : h.turns = t :: rest) :
    h.drawTurn ready = (t, { h with turns := rest }) := by simp [Inputs.drawTurn, e]

/-- On an empty queue a sequencer that can step has the turn. -/
theorem drawTurn_ready {h : Inputs} (e : h.turns = []) : (h.drawTurn true).1 = .orc := by
  simp [Inputs.drawTurn, e]

/-- On an empty queue ROT has the turn, or one of the turns put into the queue. -/
theorem drawTurn_rot {h : Inputs} (ready : Bool) (e : h.turns = []) :
    (h.drawTurn ready).1 = .rot ∨ .rot ∈ (h.drawTurn ready).2.turns := by
  simp only [Inputs.drawTurn, e]
  split
  · simp
  · split <;> simp

/-- A draw of a turn leaves every answer of the host to come. -/
theorem drawTurn_answers (ready : Bool) (h : Inputs) :
    (h.drawTurn ready).2.cmds = h.cmds ∧ (h.drawTurn ready).2.pulses = h.pulses ∧
      (h.drawTurn ready).2.reads = h.reads ∧ (h.drawTurn ready).2.writes = h.writes ∧
      (h.drawTurn ready).2.auxs = h.auxs := by
  unfold Inputs.drawTurn
  split
  · simp
  · split
    · simp
    · split <;> simp

/-- The sequencer can step exactly in run mode outside `IDLE` and `HALT` (R245). -/
theorem sequencerReady_iff (s : State) :
    sequencerReady s = true ↔ s.run = true ∧ s.orcPc ≠ .idle ∧ s.orcPc ≠ .halt := by
  cases h : s.orcPc <;> simp [sequencerReady, orcWord, h]

theorem drawCommand_cons {h : Inputs} {w : Byte} {rest : List Byte} (e : h.cmds = w :: rest) :
    h.drawCommand = (w, { h with cmds := rest }) := by simp [Inputs.drawCommand, e]

@[simp] theorem drawPulses_length (n : Nat) (h : Inputs) : (drawPulses n h).1.length = n := by
  induction n generalizing h with
  | zero => rfl
  | succ n ih => simp [drawPulses, ih]

/-! ### Host primitives as events -/

@[simp] theorem hostLineLow_eq (d : Nat) (s : State) : hostLineLow d s = emit [.lineLow d] s := rfl
@[simp] theorem hostLineRelease_eq (s : State) : hostLineRelease s = emit [.lineRelease] s := rfl
@[simp] theorem hostDelay_eq (a : DelayAgent) (n : Nat) (s : State) : hostDelay a n s = emit [.delay a n] s := rfl
@[simp] theorem hostAdvertise_eq (k : Fin 2) (bs : List Byte) (s : State) :
    hostAdvertise k bs s = emit [.advertise k bs] s := rfl
@[simp] theorem hostIndicator_eq (k : Fin 6) (c : Rgb) (s : State) :
    hostIndicator k c s = emit [.indicator k c.r c.g c.b] s := rfl
@[simp] theorem hostRead_eq (s : State) :
    hostRead s = (s.host.drawRead.1, emit [.read s.host.drawRead.1] { s with host := s.host.drawRead.2 }) := rfl
@[simp] theorem hostWrite_eq (bs : List Byte) (s : State) :
    hostWrite bs s =
      (s.host.drawWrite.1, emit [.write bs s.host.drawWrite.1] { s with host := s.host.drawWrite.2 }) := rfl
@[simp] theorem hostAux_eq (s : State) :
    hostAux s = (s.host.drawAux.1, emit [.aux s.host.drawAux.1] { s with host := s.host.drawAux.2 }) := rfl

/-! ### What `ROT.STEP` leaves and writes -/

@[simp] theorem rotStep_sa (s : State) : (rotStep s).sa = s.sa := by simp [rotStep]
@[simp] theorem rotStep_sb (s : State) : (rotStep s).sb = s.sb := by simp [rotStep]
@[simp] theorem rotStep_sx (s : State) : (rotStep s).sx = s.sx := by simp [rotStep]
@[simp] theorem rotStep_ava (s : State) : (rotStep s).ava = s.ava := by simp [rotStep]
@[simp] theorem rotStep_avb (s : State) : (rotStep s).avb = s.avb := by simp [rotStep]
@[simp] theorem rotStep_avx (s : State) : (rotStep s).avx = s.avx := by simp [rotStep]
@[simp] theorem rotStep_cmdOp (s : State) : (rotStep s).cmdOp = s.cmdOp := by simp [rotStep]
@[simp] theorem rotStep_cmdArg (s : State) : (rotStep s).cmdArg = s.cmdArg := by simp [rotStep]
@[simp] theorem rotStep_orcPc (s : State) : (rotStep s).orcPc = s.orcPc := by simp [rotStep]
@[simp] theorem rotStep_status (s : State) : (rotStep s).status = s.status := by simp [rotStep]
@[simp] theorem rotStep_fatal (s : State) : (rotStep s).fatal = s.fatal := by simp [rotStep]
@[simp] theorem rotStep_fatalCode (s : State) : (rotStep s).fatalCode = s.fatalCode := by simp [rotStep]
@[simp] theorem rotStep_off (s : State) : (rotStep s).off = s.off := by simp [rotStep]
@[simp] theorem rotStep_cntA (s : State) : (rotStep s).cntA = s.cntA := by simp [rotStep]
@[simp] theorem rotStep_cntB (s : State) : (rotStep s).cntB = s.cntB := by simp [rotStep]
@[simp] theorem rotStep_cntX (s : State) : (rotStep s).cntX = s.cntX := by simp [rotStep]
@[simp] theorem rotStep_att (s : State) : (rotStep s).att = s.att := by simp [rotStep]
@[simp] theorem rotStep_nfail (s : State) : (rotStep s).nfail = s.nfail := by simp [rotStep]
@[simp] theorem rotStep_rxLen (s : State) : (rotStep s).rxLen = s.rxLen := by simp [rotStep]
@[simp] theorem rotStep_band (s : State) : (rotStep s).band = s.band := by simp [rotStep]
@[simp] theorem rotStep_run (s : State) : (rotStep s).run = s.run := by simp [rotStep]
@[simp] theorem rotStep_histA (s : State) : (rotStep s).histA = s.histA := by simp [rotStep]
@[simp] theorem rotStep_histB (s : State) : (rotStep s).histB = s.histB := by simp [rotStep]
@[simp] theorem rotStep_histX (s : State) : (rotStep s).histX = s.histX := by simp [rotStep]
@[simp] theorem rotStep_slots (s : State) : (rotStep s).slots = s.slots := by simp [rotStep]
@[simp] theorem rotStep_rxBuf (s : State) : (rotStep s).rxBuf = s.rxBuf := by simp [rotStep]
@[simp] theorem rotStep_txBuf (s : State) : (rotStep s).txBuf = s.txBuf := by simp [rotStep]
@[simp] theorem rotStep_cfg (s : State) : (rotStep s).cfg = s.cfg := by simp [rotStep]
@[simp] theorem rotStep_host (s : State) : (rotStep s).host = s.host := by simp [rotStep]
@[simp] theorem rotStep_rotIdx (s : State) : (rotStep s).rotIdx = nextRotIdx s.rotIdx := rfl
@[simp] theorem rotStep_ev (s : State) :
    (rotStep s).ev = s.ev ++ [.advertise s.rotIdx (s.slot s.rotIdx).bytes, .delay .rot Config.slotDelay] := by
  simp [rotStep]
@[simp] theorem rotStep_slot (s : State) (k : Fin 2) : (rotStep s).slot k = s.slot k := by simp [State.slot]

/-! ### The meanings as one state function -/

/-- The state that an operation completes in. -/
def completed (i : Instr) (s : State) : State :=
  match i with
  | .nop => complete s
  | .tsdDecode => tsdDecode s
  | .fppParse => fppParse s
  | .fppCmd => fppCmd s
  | .raaPush ch => raaPush ch s
  | .raaAvg ch => raaAvg ch s
  | .raaAdv => raaAdv s
  | .peEncode kind bank => peEncode kind bank s
  | .indBand => indBand s
  | .auxSample => auxSample s
  | .fppRead => fppRead s
  | .rotStep => rotStep s
  | .waitRetry => waitRetry s
  | .waitCycle => waitCycle s

/-- Every operation runs to completion (00_scope.md R12). -/
theorem exec_eq_completed (i : Instr) (s : State) : exec i s = .next (completed i s) := by
  cases i <;> rfl

/-- The shape of an outcome of `exec`. -/
theorem exec_next_iff {i : Instr} {s t : State} : exec i s = .next t ↔ completed i s = t := by
  rw [exec_eq_completed]
  constructor
  · intro h; injection h
  · rintro rfl; rfl

/-! ### Issuing a word, and the turn of a step -/

/-- A legal word is executed. -/
theorem issue_legal {issuer : Issuer} {w : Byte} {i : Instr} (h : decodeFrom issuer w = .ok i) (s : State) :
    issue issuer w s = exec i s := by simp [issue, h]

/-- An illegal word raises `ILLEGAL_OP`. -/
theorem issue_illegal {issuer : Issuer} {w : Byte} {e : DecodeError} (h : decodeFrom issuer w = .error e)
    (s : State) : issue issuer w s = .next (raise w .illegalOp s) := by simp [issue, h]

/-- A ROT step is one `ROT.STEP`. -/
theorem rotTurn_eq (s : State) : rotTurn s = .next (rotStep s) := rfl

/-- A step takes the turn that comes next, in the state from which that turn has been drawn. -/
theorem step_eq_takeTurn (s : State) : step s = takeTurn (turnOf s) (afterTurn s) := rfl

/-- What a step can do: a reset; a ROT step (also in place of ORC where its sequencer does not step); a sequencer step; a
word of the host. -/
theorem step_cases {s t : State} (h : step s = .next t) :
    (∃ run, turnOf s = .reset run ∧ t = takeReset run (afterTurn s)) ∨
    (t = rotStep (afterTurn s) ∧
      (turnOf s = .rot ∨ (turnOf s = .orc ∧ s.run = true ∧ orcWord s = none))) ∨
    (turnOf s = .orc ∧ s.run = true ∧ ∃ w a u, orcWord s = some w ∧ attAfterRow s.orcPc s.att = some a ∧
      issue .orc w (afterTurn s) = .next u ∧ t = sequence s.orcPc a u) ∨
    (turnOf s = .orc ∧ s.run = false ∧
      issue .host (afterTurn s).host.drawCommand.1
        { afterTurn s with host := (afterTurn s).host.drawCommand.2 } = .next t) := by
  rw [step_eq_takeTurn] at h
  cases ht : turnOf s with
  | reset run =>
    rw [ht] at h
    injection h with h
    exact .inl ⟨run, rfl, h.symm⟩
  | rot =>
    rw [ht] at h
    simp only [takeTurn, rotTurn_eq] at h
    injection h with h
    exact .inr (.inl ⟨h.symm, .inl rfl⟩)
  | orc =>
    rw [ht] at h
    simp only [takeTurn, afterTurn_run] at h
    have hw' : orcWord (afterTurn s) = orcWord s := rfl
    cases hr : s.run with
    | false =>
      rw [hr] at h
      exact .inr (.inr (.inr ⟨rfl, rfl, h⟩))
    | true =>
      rw [hr] at h
      simp only [orcTurn, hw', afterTurn_orcPc, afterTurn_att] at h
      cases hw : orcWord s with
      | none =>
        rw [hw] at h
        simp only [rotTurn_eq] at h
        injection h with h
        exact .inr (.inl ⟨h.symm, .inr ⟨rfl, rfl, rfl⟩⟩)
      | some w =>
        rw [hw] at h
        simp only at h
        cases ha : attAfterRow s.orcPc s.att with
        | none => rw [ha] at h; cases h
        | some a =>
          rw [ha] at h
          simp only at h
          cases hi : issue .orc w (afterTurn s) with
          | next u =>
            rw [hi] at h
            simp only [mapNext] at h
            injection h with h
            exact .inr (.inr (.inl ⟨rfl, rfl, w, a, u, rfl, rfl, hi, h.symm⟩))
          | fault r => rw [hi] at h; cases h
          | refused r => rw [hi] at h; cases h

/-- The sequencer issues only legal words, and each stands for the operation of its row (R245, R276). -/
theorem orcWord_legal {s : State} {w : Byte} (h : orcWord s = some w) :
    ∃ i, decodeFrom .orc w = .ok i := by
  unfold orcWord at h
  split at h <;> simp only [Option.some.injEq, reduceCtorEq] at h
  all_goals subst h
  case h_13 => by_cases hc : s.cntA > 0 <;> simp only [hc, if_true, if_false] <;> exact ⟨_, rfl⟩
  case h_14 => by_cases hc : s.cntB > 0 <;> simp only [hc, if_true, if_false] <;> exact ⟨_, rfl⟩
  all_goals exact ⟨_, rfl⟩

end Sys2Proof.Machine
end

