-- ==== Sys2Proof/Laws/PerInstr.lean ====
section
/-! SUPPORT. Facts about every operation as syntax, one lemma per constructor. -/

namespace Sys2Proof.Laws

/-- The word of a well-formed operation matches its row of spec/opcode_table.json. -/
def EncodingRow.Statement (i : Instr) : Prop :=
  i.wellFormed = true → encode i &&& (opcodeRow i).mask = (opcodeRow i).pattern

theorem EncodingRow.nop : EncodingRow.Statement .nop := fun _ => rfl
theorem EncodingRow.tsdDecode : EncodingRow.Statement .tsdDecode := fun _ => rfl
theorem EncodingRow.fppParse : EncodingRow.Statement .fppParse := fun _ => rfl
theorem EncodingRow.fppCmd : EncodingRow.Statement .fppCmd := fun _ => rfl
theorem EncodingRow.raaPush (ch : Channel) : EncodingRow.Statement (.raaPush ch) := fun _ => by
  cases ch <;> rfl
theorem EncodingRow.raaAvg (ch : Channel) : EncodingRow.Statement (.raaAvg ch) := fun _ => by
  cases ch <;> rfl
theorem EncodingRow.raaAdv : EncodingRow.Statement .raaAdv := fun _ => rfl
theorem EncodingRow.peEncode (kind : Nat) (bank : Bank) : EncodingRow.Statement (.peEncode kind bank) := fun h => by
  have hk : kind < 4 := of_decide_eq_true h
  interval_cases kind <;> cases bank <;> rfl
theorem EncodingRow.indBand : EncodingRow.Statement .indBand := fun _ => rfl
theorem EncodingRow.auxSample : EncodingRow.Statement .auxSample := fun _ => rfl
theorem EncodingRow.fppRead : EncodingRow.Statement .fppRead := fun _ => rfl
theorem EncodingRow.rotStep : EncodingRow.Statement .rotStep := fun _ => rfl
theorem EncodingRow.waitRetry : EncodingRow.Statement .waitRetry := fun _ => rfl
theorem EncodingRow.waitCycle : EncodingRow.Statement .waitCycle := fun _ => rfl

end Sys2Proof.Laws
end

