-- ==== Sys2Proof/Laws/Step.lean ====
section
/-! SUPPORT. What a step can do, in terms of the operations: the inversion lemma that every invariant of the machine is
proved from. -/

namespace Sys2Proof.Machine

/-- The operation of the sequencer's row (R245); `NOP` stands for the states without a row. -/
def rowInstr (s : State) : Instr :=
  match s.orcPc with
  | .idle => .nop
  | .p0 => .auxSample
  | .p1 => .raaPush .X
  | .p2 => .tsdDecode
  | .p3 => .raaPush .A
  | .p4 => .waitRetry
  | .p5 => .fppRead
  | .p6 => .fppParse
  | .p7 => .raaPush .B
  | .p8 => .waitRetry
  | .p9 => .raaAvg .X
  | .p10 => .peEncode 0 .S
  | .p11 => if s.cntA > 0 then .raaAvg .A else .nop
  | .p12 => if s.cntB > 0 then .raaAvg .B else .nop
  | .p13 => .peEncode 1 .AV
  | .p14 => .indBand
  | .p15 => .raaAdv
  | .p16 => .waitCycle
  | .halt => .nop

/-- The word of a row decodes to the operation of the row. -/
theorem orcWord_decodes {s : State} {w : Byte} (h : orcWord s = some w) :
    decodeFrom .orc w = .ok (rowInstr s) := by
  cases hp : s.orcPc <;> simp only [orcWord, hp, Option.some.injEq, reduceCtorEq] at h
  all_goals subst h
  all_goals simp only [rowInstr, hp]
  case p11 => by_cases hc : s.cntA > 0 <;> simp only [hc, if_true, if_false] <;> rfl
  case p12 => by_cases hc : s.cntB > 0 <;> simp only [hc, if_true, if_false] <;> rfl
  all_goals rfl

/-- No row issues `ROT.STEP`. -/
theorem rowInstr_ne_rotStep (s : State) : rowInstr s ≠ .rotStep := by
  cases hp : s.orcPc <;> simp only [rowInstr, hp]
  case p11 => split <;> exact nofun
  case p12 => split <;> exact nofun
  all_goals exact nofun

/-- A row exists exactly outside `IDLE` and `HALT`. -/
theorem orcWord_none_iff (s : State) : orcWord s = none ↔ s.orcPc = .idle ∨ s.orcPc = .halt := by
  cases h : s.orcPc <;> simp [orcWord, h]

/-- `decode` where no issuer matters. -/
theorem decode_of_decodeFrom {issuer : Issuer} {w : Byte} {i : Instr} (h : decodeFrom issuer w = .ok i) :
    decode w = .ok i := by
  unfold decodeFrom at h
  split at h
  · cases h
  · next j hj =>
    split at h
    · cases h
    · rw [hj, Except.ok.inj h]

/-- Only ROT issues `ROT.STEP` (R93 d). -/
theorem decodeFrom_ne_rotStep {issuer : Issuer} {w : Byte} {i : Instr} (h : decodeFrom issuer w = .ok i)
    (hi : issuer ≠ .rot) : i ≠ .rotStep := by
  unfold decodeFrom at h
  split at h
  · cases h
  · next j hj =>
    split at h
    · cases h
    · next hn =>
      rw [← Except.ok.inj h]
      exact fun e => hn ⟨e, hi⟩

/-- Everything a step can do: a reset; a ROT step; a row of the ORC program; a legal word of the host; an illegal one. -/
theorem step_operations {s t : State} (h : step s = .next t) :
    (∃ run, turnOf s = .reset run ∧ t = takeReset run (afterTurn s)) ∨
    (t = rotStep (afterTurn s) ∧
      (turnOf s = .rot ∨ (turnOf s = .orc ∧ s.run = true ∧ (s.orcPc = .idle ∨ s.orcPc = .halt)))) ∨
    (turnOf s = .orc ∧ s.run = true ∧ s.orcPc ≠ .idle ∧ s.orcPc ≠ .halt ∧ ∃ a,
      attAfterRow s.orcPc s.att = some a ∧ t = sequence s.orcPc a (completed (rowInstr s) (afterTurn s))) ∨
    (turnOf s = .orc ∧ s.run = false ∧ ∃ host i, i ≠ .rotStep ∧ t = completed i { s with host := host }) ∨
    (turnOf s = .orc ∧ s.run = false ∧ ∃ host w, t = raise w .illegalOp { s with host := host }) := by
  rcases step_cases h with ⟨run, ht, e⟩ | ⟨e, ht⟩ | ⟨ht, hr, w, a, u, hw, ha, hu, e⟩ | ⟨ht, hr, hu⟩
  · exact .inl ⟨run, ht, e⟩
  · refine .inr (.inl ⟨e, ?_⟩)
    rcases ht with ht | ⟨ht, hr, hw⟩
    · exact .inl ht
    · exact .inr ⟨ht, hr, (orcWord_none_iff s).1 hw⟩
  · have hne : ¬ (s.orcPc = .idle ∨ s.orcPc = .halt) := fun hc => by
      rw [(orcWord_none_iff s).2 hc] at hw
      cases hw
    rw [issue_legal (orcWord_decodes hw), exec_next_iff] at hu
    subst hu
    exact .inr (.inr (.inl ⟨ht, hr, fun hc => hne (.inl hc), fun hc => hne (.inr hc), a, ha, e⟩))
  · cases hd : decodeFrom .host (afterTurn s).host.drawCommand.1 with
    | ok i =>
      rw [issue_legal hd, exec_next_iff] at hu
      exact .inr (.inr (.inr (.inl ⟨ht, hr, _, i, decodeFrom_ne_rotStep hd nofun, hu.symm⟩)))
    | error e =>
      rw [issue_illegal hd] at hu
      injection hu with hu
      exact .inr (.inr (.inr (.inr ⟨ht, hr, _, _, hu.symm⟩)))

/-- The step of a row of the ORC program. -/
theorem step_of_row {s : State} {a : Fin 61} (hr : s.run = true) (ht : turnOf s = .orc) (h1 : s.orcPc ≠ .idle)
    (h2 : s.orcPc ≠ .halt) (ha : attAfterRow s.orcPc s.att = some a) :
    step s = .next (sequence s.orcPc a (completed (rowInstr s) (afterTurn s))) := by
  cases hw : orcWord s with
  | none =>
    rcases (orcWord_none_iff s).1 hw with h | h
    · exact absurd h h1
    · exact absurd h h2
  | some w =>
    have hw' : orcWord (afterTurn s) = some w := hw
    rw [step_eq_takeTurn, ht]
    simp only [takeTurn, afterTurn_run, hr, orcTurn, hw', afterTurn_orcPc, afterTurn_att, ha,
      issue_legal (orcWord_decodes hw), exec_eq_completed, mapNext]

end Sys2Proof.Machine
end

