-- ==== Sys2Proof/Laws/Tsd.lean ====
section
/-! SUPPORT. What the wait loop of `TSD.DECODE` can do (41_tsd.md R132, R139), and the scan of `FPP.PARSE`
(42_fpp.md R156). -/

namespace Sys2Proof.Machine

/-- The events of the first `n` waits of a plan whose durations are `w`. -/
def planEvents (plan : List (Level × Status)) (w : List Nat) (n : Nat) : List Event :=
  (List.range n).map fun j => .pulseWait (plan.getD j (.high, .ok)).1 (w.getD j 0)

/-- One more wait in front of a plan, seen in the events. -/
theorem planEvents_cons (p : Level × Status) (plan : List (Level × Status)) (d : Nat) (w : List Nat) (n : Nat) :
    planEvents (p :: plan) (d :: w) (n + 1) = .pulseWait p.1 d :: planEvents plan w n := by
  simp [planEvents, List.range_succ_eq_map, Function.comp_def]

/-- The first wait above the timeout ends the loop: its phase is the status, the waits up to it are the events, and no
later answer is asked for. -/
theorem tsdWaits_timeout {plan : List (Level × Status)} {h : Inputs} {f : Nat} (hf : f < plan.length)
    (hlong : (drawPulses plan.length h).1.getD f 0 > Config.waitTimeout)
    (hshort : ∀ j < f, (drawPulses plan.length h).1.getD j 0 ≤ Config.waitTimeout) :
    tsdWaits plan h =
      ⟨.error (plan.getD f (.high, .ok)).2, planEvents plan (drawPulses plan.length h).1 (f + 1),
        (drawPulses (f + 1) h).2⟩ := by
  induction plan generalizing h f with
  | nil => simp at hf
  | cons p plan ih =>
    obtain ⟨level, phase⟩ := p
    cases f with
    | zero =>
      simp only [List.length_cons, drawPulses, List.getD_cons_zero] at hlong
      simp [tsdWaits, hlong, drawPulses, planEvents]
    | succ f =>
      have h0 : ¬ h.drawPulse.1 > Config.waitTimeout := by
        have := hshort 0 (Nat.succ_pos f)
        simp only [List.length_cons, drawPulses, List.getD_cons_zero] at this
        omega
      have hrec := ih (h := h.drawPulse.2) (f := f) (by simpa using hf)
        (by simpa only [List.length_cons, drawPulses, List.getD_cons_succ] using hlong)
        (fun j hj => by
          have := hshort (j + 1) (by omega)
          simpa only [List.length_cons, drawPulses, List.getD_cons_succ] using this)
      simp only [tsdWaits, h0, if_false, hrec, List.length_cons, drawPulses, planEvents_cons,
        List.getD_cons_succ, Except.map]

/-- Where no wait is above the timeout, all of them are made and their durations are the result. -/
theorem tsdWaits_complete {plan : List (Level × Status)} {h : Inputs}
    (hshort : ∀ j < plan.length, (drawPulses plan.length h).1.getD j 0 ≤ Config.waitTimeout) :
    tsdWaits plan h =
      ⟨.ok (drawPulses plan.length h).1, planEvents plan (drawPulses plan.length h).1 plan.length,
        (drawPulses plan.length h).2⟩ := by
  induction plan generalizing h with
  | nil => rfl
  | cons p plan ih =>
    obtain ⟨level, phase⟩ := p
    have h0 : ¬ h.drawPulse.1 > Config.waitTimeout := by
      have := hshort 0 (by simp)
      simp only [List.length_cons, drawPulses, List.getD_cons_zero] at this
      omega
    have hrec := ih (h := h.drawPulse.2) (fun j hj => by
      have := hshort (j + 1) (by simpa using hj)
      simpa only [List.length_cons, drawPulses, List.getD_cons_succ] using this)
    simp only [tsdWaits, h0, if_false, hrec, List.length_cons, drawPulses, planEvents_cons, Except.map]

/-- A transaction has 82 waits. -/
@[simp] theorem tsdPlan_length : tsdPlan.length = 82 := by decide

/-- Wait `j` looks at the level of the protocol (R100). -/
theorem tsdPlan_level : ∀ j < 82, (tsdPlan.getD j (.high, .ok)).1 = levelOfWait j := by decide

/-- Wait `j` belongs to the start phase for `j` = 0, 1 and to the receive phase after that (R138). -/
theorem tsdPlan_phase : ∀ j < 82,
    (tsdPlan.getD j (.high, .ok)).2 = if j < 2 then .timeoutStart else .timeoutRecv := by decide

/-- Either some wait is above the timeout, and then there is a first one, or none is. -/
theorem first_timeout_or_none (w : List Nat) (n : Nat) :
    (∃ f < n, w.getD f 0 > Config.waitTimeout ∧ ∀ j < f, w.getD j 0 ≤ Config.waitTimeout) ∨
      ∀ j < n, w.getD j 0 ≤ Config.waitTimeout := by
  induction n with
  | zero => exact .inr fun j hj => absurd hj (Nat.not_lt_zero j)
  | succ n ih =>
    rcases ih with ⟨f, hf, h⟩ | hall
    · exact .inl ⟨f, by omega, h⟩
    · by_cases hn : w.getD n 0 > Config.waitTimeout
      · exact .inl ⟨n, Nat.lt_succ_self n, hn, hall⟩
      · refine .inr fun j hj => ?_
        rcases Nat.lt_succ_iff_lt_or_eq.1 hj with hj | rfl
        · exact hall j hj
        · omega

/-- The events of a transaction's plan are those of its levels. -/
theorem planEvents_tsdPlan (w : List Nat) {n : Nat} (hn : n ≤ 82) : planEvents tsdPlan w n = pulseEvents w n := by
  unfold planEvents pulseEvents
  refine List.map_congr_left fun j hj => ?_
  rw [tsdPlan_level j (by have := List.mem_range.1 hj; omega)]

/-- What `TSD.DECODE` can do (R139): the first timeout decides, and where there is none, the durations do. -/
theorem tsdDecode_cases (s : State) :
    (∃ f < 82, (drawPulses 82 s.host).1.getD f 0 > Config.waitTimeout ∧
      (∀ j < f, (drawPulses 82 s.host).1.getD j 0 ≤ Config.waitTimeout) ∧
      tsdDecode s = raise 0x10 (if f < 2 then .timeoutStart else .timeoutRecv)
        (emit ([.lineLow 8600, .lineRelease] ++ pulseEvents (drawPulses 82 s.host).1 (f + 1))
          { s with host := (drawPulses (f + 1) s.host).2 })) ∨
    ((∀ j < 82, (drawPulses 82 s.host).1.getD j 0 ≤ Config.waitTimeout) ∧
      tsdDecode s = tsdFinish (drawPulses 82 s.host).1
        (emit ([.lineLow 8600, .lineRelease] ++ pulseEvents (drawPulses 82 s.host).1 82)
          { s with host := (drawPulses 82 s.host).2 })) := by
  have hev : ∀ (es : List Event) (h : Inputs),
      emit es { hostLineRelease (hostLineLow Config.startLow s) with host := h } =
        emit ([.lineLow 8600, .lineRelease] ++ es) { s with host := h } := by
    intro es h
    simp [emit, Config.startLow]
  rcases first_timeout_or_none (drawPulses 82 s.host).1 82 with ⟨f, hf, hlong, hshort⟩ | hall
  · refine .inl ⟨f, hf, hlong, hshort, ?_⟩
    have hw := tsdWaits_timeout (plan := tsdPlan) (h := s.host) (f := f)
      (by simpa using hf) (by simpa using hlong) (by simpa using hshort)
    rw [tsdPlan_length, planEvents_tsdPlan _ (by omega), tsdPlan_phase f hf] at hw
    simp only [tsdDecode, hostLineLow_eq, hostLineRelease_eq, emit_host, hw]
    exact congrArg _ (hev _ _)
  · refine .inr ⟨hall, ?_⟩
    have hw := tsdWaits_complete (plan := tsdPlan) (h := s.host) (by simpa using hall)
    rw [tsdPlan_length, planEvents_tsdPlan _ (le_refl 82)] at hw
    simp only [tsdDecode, hostLineLow_eq, hostLineRelease_eq, emit_host, hw]
    exact congrArg _ (hev _ _)

/-- The scan finds nothing exactly where no two neighbours are the sync marker. -/
theorem fppScan_none_iff (buf : List Byte) :
    fppScan buf = none ↔
      ∀ i, i + 1 < buf.length → ¬ (byteAt buf i = Config.sync0 ∧ byteAt buf (i + 1) = Config.sync1) := by
  induction buf with
  | nil => simp [fppScan]
  | cons b0 rest ih =>
    cases rest with
    | nil => simp [fppScan]
    | cons b1 rest =>
      simp only [fppScan]
      split
      · next hm =>
        simp only [reduceCtorEq, false_iff, not_forall]
        exact ⟨0, by simp, by simpa [byteAt] using hm⟩
      · next hm =>
        rw [Option.map_eq_none_iff, ih]
        constructor
        · intro hall i hi
          cases i with
          | zero => simpa [byteAt] using hm
          | succ i => simpa [byteAt] using hall i (by simpa using hi)
        · intro hall i hi
          simpa [byteAt] using hall (i + 1) (by simpa using hi)

/-- The scan finds the first place where two neighbours are the sync marker. -/
theorem fppScan_some_iff (buf : List Byte) (i : Nat) :
    fppScan buf = some i ↔
      (i + 1 < buf.length ∧ byteAt buf i = Config.sync0 ∧ byteAt buf (i + 1) = Config.sync1) ∧
        ∀ j < i, ¬ (byteAt buf j = Config.sync0 ∧ byteAt buf (j + 1) = Config.sync1) := by
  induction buf generalizing i with
  | nil => simp [fppScan]
  | cons b0 rest ih =>
    cases rest with
    | nil => simp [fppScan]
    | cons b1 rest =>
      simp only [fppScan]
      split
      · next hm =>
        rw [Option.some.injEq]
        constructor
        · rintro rfl
          exact ⟨⟨by simp, by simpa [byteAt] using hm⟩, fun j hj => absurd hj (Nat.not_lt_zero j)⟩
        · rintro ⟨-, hfirst⟩
          cases i with
          | zero => rfl
          | succ i => exact absurd (by simpa [byteAt] using hm) (hfirst 0 (Nat.succ_pos i))
      · next hm =>
        rw [Option.map_eq_some_iff]
        constructor
        · rintro ⟨k, hk, rfl⟩
          obtain ⟨⟨hlen, h0, h1⟩, hfirst⟩ := (ih k).1 hk
          refine ⟨⟨by simpa using hlen, by simpa [byteAt] using h0, by simpa [byteAt] using h1⟩, ?_⟩
          intro j hj
          cases j with
          | zero => simpa [byteAt] using hm
          | succ j => simpa [byteAt] using hfirst j (by omega)
        · rintro ⟨⟨hlen, h0, h1⟩, hfirst⟩
          cases i with
          | zero => exact absurd (by simpa [byteAt] using And.intro h0 h1) hm
          | succ k =>
            refine ⟨k, (ih k).2 ⟨⟨by simpa using hlen, by simpa [byteAt] using h0, by simpa [byteAt] using h1⟩, ?_⟩, rfl⟩
            intro j hj
            simpa [byteAt] using hfirst (j + 1) (by omega)

/-- Field `f` of a sample B given by its fields. -/
@[simp] theorem SampleB.field_ofFields (g : Fin 12 → U16) (f : Fin 12) : (SampleB.ofFields g).field f = g f := by
  fin_cases f <;> rfl

end Sys2Proof.Machine
end

