-- ==== Sys2Proof/Laws/Turns.lean ====
section
/-! SUPPORT. The turns through a step, and several steps in a row: what the statements about fairness (00_scope.md R8,
70_reset_and_hazards.md R326) are proved from. -/

namespace Sys2Proof.Machine

/-! ### The turns to come -/

theorem drawPulse_turns (h : Inputs) : h.drawPulse.2.turns = h.turns := by
  unfold Inputs.drawPulse
  cases h.pulses <;> rfl

theorem drawRead_turns (h : Inputs) : h.drawRead.2.turns = h.turns := by
  unfold Inputs.drawRead
  cases h.reads <;> rfl

theorem drawWrite_turns (h : Inputs) : h.drawWrite.2.turns = h.turns := by
  unfold Inputs.drawWrite
  cases h.writes <;> rfl

theorem drawAux_turns (h : Inputs) : h.drawAux.2.turns = h.turns := by
  unfold Inputs.drawAux
  cases h.auxs <;> rfl

theorem drawCommand_turns (h : Inputs) : h.drawCommand.2.turns = h.turns := by
  unfold Inputs.drawCommand
  cases h.cmds <;> rfl

theorem drawPulses_turns (n : Nat) (h : Inputs) : (drawPulses n h).2.turns = h.turns := by
  induction n generalizing h with
  | zero => rfl
  | succ n ih => exact (ih h.drawPulse.2).trans (drawPulse_turns h)

/-- No operation takes a turn from the queue or puts one in. -/
@[simp] theorem completed_turns (i : Instr) (s : State) : (completed i s).host.turns = s.host.turns := by
  cases i <;> simp only [completed]
  case tsdDecode =>
    rcases tsdDecode_cases s with ⟨f, -, -, -, e⟩ | ⟨-, e⟩ <;> rw [e]
    · simp [drawPulses_turns]
    · simp only [tsdFinish]
      split <;> simp [drawPulses_turns]
  case fppRead =>
    simp only [fppRead]
    split <;> simp [drawRead_turns]
  case fppParse =>
    simp only [fppParse]
    split <;> simp
  case fppCmd =>
    simp only [fppCmd]
    split <;> simp [drawWrite_turns]
  case raaPush ch => cases ch <;> simp [raaPush]
  case raaAvg ch =>
    simp only [raaAvg]
    split <;> cases ch <;> simp [writeMean]
  case peEncode kind bank =>
    simp only [peEncode]
    split <;> simp
  all_goals simp [indBand, auxSample, raaAdv, waitRetry, waitCycle, drawAux_turns]

/-- The turns after a step are those that the draw of its turn leaves. -/
theorem step_turns {s t : State} (h : step s = .next t) : t.host.turns = (afterTurn s).host.turns := by
  rcases step_cases h with ⟨run, -, e⟩ | ⟨e, -⟩ | ⟨-, -, w, a, u, hw, -, hu, e⟩ | ⟨-, -, hu⟩
  · rw [e]
    rfl
  · rw [e, rotStep_host]
  · rw [issue_legal (orcWord_decodes hw), exec_next_iff] at hu
    rw [e, sequence_host, ← hu, completed_turns]
  · cases hd : decodeFrom .host (afterTurn s).host.drawCommand.1 with
    | ok i =>
      rw [issue_legal hd, exec_next_iff] at hu
      rw [← hu, completed_turns]
      exact drawCommand_turns _
    | error e =>
      rw [issue_illegal hd] at hu
      injection hu with hu
      rw [← hu, raise_host]
      exact drawCommand_turns _

/-- The head of the queue is the turn of the step, and the rest of it is left. -/
theorem turn_of_queue {s : State} {x : Turn} {l : List Turn} (h : s.host.turns = x :: l) :
    turnOf s = x ∧ (afterTurn s).host.turns = l := by
  unfold turnOf
  rw [afterTurn_host, drawTurn_cons _ h]
  exact ⟨rfl, rfl⟩

/-! ### Several steps -/

/-- A step, then `n` more. -/
theorem run_of_step {s t : State} (h : step s = .next t) (n : Nat) : core.run (n + 1) s = core.run n t := by
  have h' : core.step s = .next t := h
  simp only [Host.Core.run, h']

/-- `m` steps, then `n` more. -/
theorem run_add {s t : State} {m : Nat} (h : core.run m s = .next t) (n : Nat) :
    core.run (m + n) s = core.run n t := by
  induction m generalizing s with
  | zero =>
    simp only [Host.Core.run] at h
    injection h with h
    rw [h, Nat.zero_add]
  | succ m ih =>
    rw [Nat.add_right_comm]
    simp only [Host.Core.run] at h ⊢
    cases hs : core.step s with
    | next u =>
      rw [hs] at h
      exact ih h
    | fault r => rw [hs] at h; cases h
    | refused r => rw [hs] at h; cases h

end Sys2Proof.Machine
end

