-- ==== Sys2Proof/Tests/Slice0.lean ====
section
/-! SUPPORT. The model's own tests: the smoke test of WellFormed, one written-out word for every constructor, at most two
single steps per operation with the vectors of 95_test_vectors.md, and for every statement with hypotheses a state and
operands that meet them. Open parameters have the simulator's values of 95_test_vectors.md. -/

namespace Sys2Proof.Tests

open Sys2Proof.Machine

/-! ### Helpers -/

/-- The simulator's open parameters (95_test_vectors.md), with a capacity of `cap`. -/
def simParams (cap : Nat) : Params where
  hdr := #v[0xA0, 0xA1, 0xA2, 0xA3, 0xA4, 0xA5]
  pcntBigEndian := true
  tCycle := 60000
  rxcap := cap
  bandRgb := #v[⟨0, 0, 0⟩, ⟨1, 1, 1⟩, ⟨2, 2, 2⟩, ⟨3, 3, 3⟩, ⟨4, 4, 4⟩, ⟨5, 5, 5⟩]

/-- The simulator after a reset with the strap `run` and the turns `turns` to come. -/
def sim (run : Bool) (turns : List Turn) : State :=
  State.afterReset (simParams 64) run { Inputs.free with turns := turns }

/-- Direct mode, with the word `w` on the command port. -/
def withWord (w : Byte) (s : State) : State :=
  { s with host := { s.host with turns := [.orc], cmds := [w] } }

/-- The direct-mode state of the simulator with `w` on the command port. -/
def direct (w : Byte) : State := withWord w (sim false [])

/-- The state after one step, if there is one. -/
def after (s : State) : Option State :=
  match step s with
  | .next t => some t
  | .fault _ => none
  | .refused _ => none

/-- The durations that spell one byte (95_test_vectors.md S8), with `w0` and `w1` for the high part of a bit. -/
def byteWaits (w0 w1 b : Nat) : List Nat :=
  (List.range 8).flatMap fun k => [50, if b.testBit (7 - k) then w1 else w0]

/-- The 82 durations of a transaction that spells the bytes `bs`. -/
def waits (w0 w1 : Nat) (bs : List Nat) : List Nat := [30, 80] ++ bs.flatMap (byteWaits w0 w1)

/-- The bytes of vector T1. -/
def t1 : List Nat := [0x02, 0x8C, 0x01, 0x5F, 0xEE]

/-- The bytes of vector T8. -/
def t8 : List Nat := [0x02, 0x8C, 0x01, 0x5F, 0xEF]

/-- `s` with the answers `w` of `HostPulseWait` to come. -/
def withWaits (w : List Nat) (s : State) : State := { s with host := { s.host with pulses := w } }

/-- `s` with the answer `r` of `HostRead` to come. -/
def withRead (r : ReadAnswer) (s : State) : State := { s with host := { s.host with reads := [r] } }

/-- `s` with the answer `a` of `HostWrite` to come. -/
def withWrite (a : WriteAnswer) (s : State) : State := { s with host := { s.host with writes := [a] } }

/-- `s` with the answer `v` of `HostAux` to come. -/
def withAux (v : Byte) (s : State) : State := { s with host := { s.host with auxs := [v] } }

/-- `s` with the bytes `bs` received. -/
def withRx (bs : List Byte) (s : State) : State :=
  { s with rxBuf := Memory.writeBytes [] 0 bs, rxLen := bs.length }

/-- Frame 1 of 95_test_vectors.md section 2.2. -/
def frame1 : List Byte :=
  [0x42, 0x4D, 0x00, 0x1C, 0x00, 0x05, 0x00, 0x08, 0x00, 0x09, 0x00, 0x05, 0x00, 0x08, 0x00, 0x09,
   0x03, 0x84, 0x01, 0x04, 0x00, 0x2D, 0x00, 0x06, 0x00, 0x02, 0x00, 0x01, 0x00, 0x00, 0x01, 0x99]

/-- The fields of frame 1 (`B1`). -/
def b1 : SampleB := ⟨5, 8, 9, 5, 8, 9, 900, 260, 45, 6, 2, 1⟩

/-- A run-mode state in `pc` with `ATT = att`, ORC's turn next. -/
def atRow (pc : OrcPc) (att : Fin 61) : State := { sim true [.orc] with orcPc := pc, att := att }

/-! ### Well-formedness: the one check refuses an ill-formed term -/

theorem test_wellFormed_refuses_kind_4 : (Instr.peEncode 4 .S).wellFormed = false := by decide

theorem test_wellFormed_accepts_kind_3 : (Instr.peEncode 3 .AV).wellFormed = true := by decide

/-! ### Decoding: a word of every constructor, written out from R90 to R95 -/

theorem test_decode_nop : decode 0b00000000#8 = .ok .nop := by decide
theorem test_decode_tsdDecode : decode 0b00010000#8 = .ok .tsdDecode := by decide
theorem test_decode_fppParse : decode 0b00100000#8 = .ok .fppParse := by decide
theorem test_decode_fppCmd : decode 0b00110000#8 = .ok .fppCmd := by decide
theorem test_decode_raaPush : decode 0b01000010#8 = .ok (.raaPush .X) := by decide
theorem test_decode_raaAvg : decode 0b01010001#8 = .ok (.raaAvg .B) := by decide
theorem test_decode_raaAdv : decode 0b01100000#8 = .ok .raaAdv := by decide
theorem test_decode_peEncode : decode 0b01110110#8 = .ok (.peEncode 2 .AV) := by decide
theorem test_decode_indBand : decode 0b10000000#8 = .ok .indBand := by decide
theorem test_decode_auxSample : decode 0b10010000#8 = .ok .auxSample := by decide
theorem test_decode_fppRead : decode 0b10100000#8 = .ok .fppRead := by decide
theorem test_decode_rotStep : decode 0b10110000#8 = .ok .rotStep := by decide
theorem test_decode_waitRetry : decode 0b11000000#8 = .ok .waitRetry := by decide
theorem test_decode_waitCycle : decode 0b11000001#8 = .ok .waitCycle := by decide

/-- W7 and section 2.4: illegal words, each by the case of R93. -/
theorem test_decode_illegal :
    [0xD0, 0xE5, 0xFF, 0x01, 0x11, 0x61, 0xC2, 0x43, 0x78, 0xB0].map (fun w : Byte => decodeFrom .host w) =
      [.error .reservedOp, .error .reservedOp, .error .reservedOp, .error .mustBeZero, .error .mustBeZero,
       .error .mustBeZero, .error .mustBeZero, .error .illegalChannel, .error .mustBeZero, .error .notFromRot] := by
  decide

theorem test_decodeTableWord : decodeTableWord 8 0x75 = some (.peEncode 1 .AV) ∧ decodeTableWord 8 0x1B0 = none ∧
    decodeTableWord 16 0x00 = none := by decide

/-! ### The host's two entry points, from the reset state -/

/-- Every legal word, placed for the next step, is run to a next state. -/
theorem test_placed_words_run :
    ([0x00, 0x10, 0x20, 0x30, 0x41, 0x52, 0x60, 0x75, 0x80, 0x90, 0xA0, 0xB0, 0xC0, 0xC1].all fun w =>
      match step (State.reset.withFetchWord 8 w) with
      | .next _ => true
      | .fault _ => false
      | .refused _ => false) = true := by rfl

theorem test_placed_nop : step (State.reset.withFetchWord 8 0x00) =
    exec .nop { State.reset with run := false, orcPc := .idle } := by rfl

/-! ### One step per operation -/

/-- W5. -/
theorem test_nop : (after { direct 0x00 with status := .checksum }).map (fun t => (t.status, t.ev)) =
    some (.ok, []) := by decide

/-- T1. -/
theorem test_tsd_ok : (after (withWaits (waits 27 70 t1) (direct 0x10))).map
    (fun t => (t.status, t.sa, t.ev.length)) = some (.ok, ⟨351, 652⟩, 84) := by decide

/-- T2: a negative temperature; and T16 on it, the last wait too long. -/
theorem test_tsd_negative_and_timeout :
    (after (withWaits (waits 27 70 [0x02, 0x8C, 0x80, 0x65, 0x73]) (direct 0x10))).map (fun t => t.sa.temp.toInt) =
      some (-101) ∧
    (after (withWaits ((waits 27 70 t1).set 81 261) (direct 0x10))).map (fun t => (t.status, t.sa)) =
      some (.timeoutRecv, ⟨0, 0⟩) := by decide

/-- 95_test_vectors.md section 2.2: 100 bytes with `RXCAP = 64`. -/
theorem test_fppRead_keeps_the_first_64 :
    (after (withRead (.bytes (List.replicate 100 0x42)) (direct 0xA0))).map
      (fun t => (t.status, t.rxLen, t.rxBuf.read 63, t.rxBuf.read 64)) = some (.ok, 64, 0x42, 0) := by decide

theorem test_fppRead_transport :
    (after (withRead .transportError (withRx [1, 2] (direct 0xA0)))).map (fun t => (t.status, t.rxLen, t.rxBuf.read 1)) =
      some (.transport, 0, 2) := by decide

/-- F2: two garbage bytes before the frame. -/
theorem test_fppParse_finds_the_frame :
    (after (withRx (0xAA :: 0x42 :: frame1) (direct 0x20))).map (fun t => (t.status, t.sb)) = some (.ok, b1) := by
  decide

/-- F12: a false marker decides, the valid frame behind it is not looked at. -/
theorem test_fppParse_first_marker_decides :
    (after (withRx (0x42 :: 0x4D :: 0x00 :: frame1) (direct 0x20))).map (fun t => (t.status, t.sb)) =
      some (.checksum, SampleB.zero) := by decide

/-- K1. -/
theorem test_fppCmd_frame :
    (after { withWrite (.count 7) (direct 0x30) with cmdOp := 0x12, cmdArg := 0x3456 }).map
      (fun t => (t.status, t.txBuf.toList)) = some (.ok, [0x42, 0x4D, 0x12, 0x34, 0x56, 0x01, 0x2B]) := by decide

/-- K3 with a short count. -/
theorem test_fppCmd_short_count :
    (after { withWrite (.count 6) (direct 0x30) with cmdOp := 0xFF, cmdArg := 0xFFFF }).map
      (fun t => (t.status, t.fatal, t.txBuf.toList)) =
      some (.transport, false, [0x42, 0x4D, 0xFF, 0xFF, 0xFF, 0x03, 0x8C]) := by decide

/-- The second push of A6: the same element, the counter up again. -/
theorem test_raaPush_overwrites :
    (after { direct 0x42 with sx := 8, histX := (sim false []).histX.set 0 4, cntX := 1 }).map
      (fun t => (t.histX[0], t.cntX, t.off)) = some (8, 2, 0) := by decide

/-- A12: the counter stays at 10. -/
theorem test_raaPush_saturates :
    (after { direct 0x40 with sa := ⟨7, 9⟩, cntA := 10, off := 9 }).map (fun t => (t.histA[9], t.cntA)) =
      some (⟨7, 9⟩, 10) := by decide

/-- A4: sum −31 by 3 is −11. -/
theorem test_raaAvg_rounds_down :
    (after { direct 0x50 with
      cntA := 3
      histA := #v[⟨-15, 0⟩, ⟨-15, 0⟩, ⟨-1, 0⟩, ⟨99, 9⟩, ⟨0, 0⟩, ⟨0, 0⟩, ⟨0, 0⟩, ⟨0, 0⟩, ⟨0, 0⟩, ⟨0, 0⟩] }).map
      (fun t => t.ava.temp.toInt) = some (-11) := by decide

/-- A10. -/
theorem test_raaAvg_empty :
    (after (direct 0x51)).map (fun t => (t.status, t.fatal, t.fatalCode, t.ev)) =
      some (.emptyWindow, true, .emptyWindow, [.report 0x51 .emptyWindow]) := by decide

/-- A11. -/
theorem test_raaAdv_wraps : (after { direct 0x60 with off := 9 }).map (·.off) = some 0 := by decide

/-- E3. -/
theorem test_peEncode_record :
    (after { direct 0x75 with ava := ⟨-101, 652⟩, avb := b1, avx := 31 }).map (fun t => (t.slot 1).record.toList) =
      some [0x61, 0x96, 0x8C, 0x00, 0x50, 0x08, 0x00, 0x90, 0x05, 0x00, 0x80, 0x09, 0x03, 0x84, 0x01, 0x04, 0x00,
        0x2D, 0x00, 0x06, 0x00, 0x02, 0x00, 0x01, 0x1F] := by decide

/-- E15: bit 12 of the second concentration of a pair is taken literally. -/
theorem test_peEncode_wide_pair :
    (after { direct 0x70 with sb := { SampleB.zero with smPm10 := 0x0ABC, smPm25 := 0x1DEF } }).map
      (fun t => ((t.slot 0).record.toList.drop 3).take 3) = some [0xAB, 0xDD, 0xEF] := by decide

/-- I11. -/
theorem test_indBand_boundary :
    (after { direct 0x80 with cntB := 1, avb := { SampleB.zero with aePm25 := 76, aePm100 := 110 } }).map
      (fun t => (t.band, t.ev)) = some (4, [.indicator 4 4 4 4]) := by decide

/-- I19. -/
theorem test_indBand_without_sample : (after (direct 0x80)).map (·.band) = some 5 := by decide

theorem test_auxSample : (after (withAux 31 (direct 0x90))).map (fun t => (t.sx, t.ev)) = some (31, [.aux 31]) := by
  decide

/-- R215: the slot, then the delay; the index wraps. -/
theorem test_rotStep :
    (after { sim true [.rot] with rotIdx := 1 }).map (fun t => (t.rotIdx, t.ev)) =
      some (0, [.advertise 1 ([0xA0, 0xA1, 0xA2, 0xA3, 0xA4, 0xA5] ++ List.replicate 25 0), .delay .rot 100]) := by
  decide

/-- W1 and W2. -/
theorem test_waitRetry :
    (after { direct 0xC0 with nfail := 3 }).map (fun t => (t.nfail, t.ev)) = some (4, [.delay .orc 2000]) ∧
    (after { direct 0xC0 with nfail := 127 }).map (·.nfail) = some 127 := by decide

/-- W3 and W4. -/
theorem test_waitCycle :
    (after { direct 0xC1 with nfail := 1 }).map (fun t => (t.nfail, t.ev)) = some (0, [.delay .orc 58000]) ∧
    (after { direct 0xC1 with nfail := 30 }).map (·.ev) = some [.delay .orc 0] := by decide

/-- W6, and W8's sticky code. -/
theorem test_illegal_word :
    (after (direct 0x43)).map (fun t => (t.status, t.fatal, t.fatalCode, t.ev)) =
      some (.illegalOp, true, .illegalOp, [.report 0x43 .illegalOp]) ∧
    (after { direct 0x50 with fatal := true, fatalCode := .invalidSlot }).map (fun t => (t.status, t.fatalCode)) =
      some (.emptyWindow, .invalidSlot) := by decide

/-- Program 3, step 3: a bad checksum leads to the retry state. -/
theorem test_row_P2_fails :
    (after (withWaits (waits 27 70 t8) (atRow .p2 0))).map (fun t => (t.status, t.orcPc, t.att)) =
      some (.checksum, .p4, 1) := by decide

/-- Program 4: sixty attempts are the last of a sensor. -/
theorem test_row_P5_gives_up :
    (after (withRead .transportError (atRow .p5 59))).map (fun t => (t.orcPc, t.att)) = some (.p9, 60) := by decide

/-- R8, R326: with no turn in the queue a sequencer that can step has the turn, and ROT's is among the turns owed. -/
theorem test_empty_queue : turnOf (sim true []) = .orc ∧ Turn.rot ∈ (afterTurn (sim true [])).host.turns :=
  ⟨rfl, List.mem_append_right _ (List.mem_cons_self ..)⟩

/-! ### Witnesses: for every statement with hypotheses, values that meet them -/

theorem witness_decode_of_encode : (Instr.peEncode 3 .AV).wellFormed = true ∧ (Instr.peEncode 0 .S).wellFormed = true ∧
    Instr.waitCycle.wellFormed = true ∧ Instr.waitCycle ≠ .rotStep := by decide

theorem witness_encode_of_decode : decode 0x77 = .ok (.peEncode 3 .AV) ∧ decode 0x00 = .ok .nop := by decide

theorem witness_legal_words : 3 < 4 ∧ decodeFrom .host 0x53 = .error .illegalChannel ∧
    decodeFrom .orc 0xB0 = .error .notFromRot ∧ decodeFrom .rot 0xFF = .error .reservedOp := by decide

theorem witness_nop_rows : (atRow .p11 0).orcPc = .p11 ∧ (atRow .p11 0).cntA = 0 ∧ (atRow .p12 0).orcPc = .p12 ∧
    (atRow .p12 0).cntB = 0 := by decide

theorem witness_aux_sample : (withAux 255 (direct 0x90)).host.drawAux = (255, (direct 0x90).host) := by decide

/-- The boundary counts 1 and 10 of a window. -/
theorem witness_floor_mean : 0 < { sim false [] with cntA := 1 }.cntA ∧ 0 < { sim false [] with cntA := 10 }.cntA ∧
    0 < { sim false [] with cntB := 1 }.cntB ∧ 0 < { sim false [] with cntB := 10 }.cntB ∧
    0 < { sim false [] with cntX := 1 }.cntX ∧ 0 < { sim false [] with cntX := 10 }.cntX := by decide

theorem witness_empty_window : (sim false []).cnt .A = 0 ∧ (sim false []).cnt .B = 0 ∧ (sim false []).cnt .X = 0 := by
  decide

theorem witness_invalid_slot : (2 ≤ 2 ∧ 2 < 4) ∧ (2 ≤ 3 ∧ 3 < 4) := by decide

theorem witness_packed_record : 0 < 4 ∧ 3 < 4 := by decide

/-- E6: the extremes of the field widths, both signs. -/
theorem witness_unpack_of_pack : 3 ≤ 3 ∧ (-2047 : BitVec 16).toInt.natAbs ≤ 2047 ∧ (2047 : BitVec 16).toInt.natAbs ≤ 2047 ∧
    (1023 : BitVec 16).toNat ≤ 1023 ∧
    (∀ f : Fin 12, f.val < 6 → ((⟨4095, 4095, 4095, 4095, 4095, 4095, 1, 2, 3, 4, 5, 6⟩ : SampleB).field f).toNat ≤ 4095) ∧
    (∃ f : Fin 12, 6 ≤ f.val) := by
  refine ⟨by decide, by decide, by decide, by decide, by decide, ⟨6, by decide⟩⟩

/-- An answer longer than `RXCAP`, one of exactly `RXCAP` bytes, the empty one, and the error. -/
theorem witness_fpp_read : (sim false []).rxBuf.wf = true ∧
    (withRead (.bytes (List.replicate 65 1)) (sim false [])).host.drawRead =
      (.bytes (List.replicate 65 1), (sim false []).host) ∧
    (withRead (.bytes (List.replicate 64 1)) (sim false [])).host.drawRead =
      (.bytes (List.replicate 64 1), (sim false []).host) ∧
    (withRead (.bytes []) (sim false [])).host.drawRead = (.bytes [], (sim false []).host) ∧
    (withRead .transportError (sim false [])).host.drawRead = (.transportError, (sim false []).host) := by decide

/-- No marker: one byte `SYNC0`, so that no second byte is valid (F4). -/
theorem witness_fpp_parse_no_marker : ∀ i, ¬ markerAt (withRx [0x42] (sim false [])) i :=
  fun _ h => absurd h.1 (by simp [withRx])

/-- A marker with 31 bytes from it: one too few (F8). -/
theorem witness_fpp_parse_incomplete : firstMarkerAt (withRx (frame1.take 31) (sim false [])) 0 ∧
    ¬ 0 + 31 < (withRx (frame1.take 31) (sim false [])).rxLen :=
  ⟨⟨⟨by decide, by decide, by decide⟩, fun _ h => absurd h (Nat.not_lt_zero _)⟩, by decide⟩

/-- A marker with exactly 32 bytes from it and a wrong last byte (F10). -/
theorem witness_fpp_parse_checksum :
    let s := withRx (frame1.set 31 0x98) (sim false [])
    firstMarkerAt s 0 ∧ 0 + 31 < s.rxLen ∧
      ((List.range 30).map fun j => (s.rxBuf.read (0 + j)).toNat).sum % 65536 ≠
        256 * (s.rxBuf.read (0 + 30)).toNat + (s.rxBuf.read (0 + 31)).toNat :=
  ⟨⟨⟨by decide, by decide, by decide⟩, fun _ h => absurd h (Nat.not_lt_zero _)⟩, by decide, by decide⟩

/-- A whole frame at index 0 (F1). -/
theorem witness_fpp_parse_ok :
    let s := withRx frame1 (sim false [])
    firstMarkerAt s 0 ∧ 0 + 31 < s.rxLen ∧
      ((List.range 30).map fun j => (s.rxBuf.read (0 + j)).toNat).sum % 65536 =
        256 * (s.rxBuf.read (0 + 30)).toNat + (s.rxBuf.read (0 + 31)).toNat :=
  ⟨⟨⟨by decide, by decide, by decide⟩, fun _ h => absurd h (Nat.not_lt_zero _)⟩, by decide, by decide⟩

theorem witness_fpp_cmd : (withWrite (.count 7) (sim false [])).host.drawWrite = (.count 7, (sim false []).host) ∧
    (withWrite (.count 8) (sim false [])).host.drawWrite = (.count 8, (sim false []).host) ∧
    WriteAnswer.count 8 ≠ .count 7 ∧ WriteAnswer.transportError ≠ .count 7 := by decide

/-- T13 to T16: the first timeout at wait 0, 1, 2 and 81, by one unit. -/
theorem witness_tsd_timeout :
    [0, 1, 2, 81].all (fun f =>
      let w := (drawPulses 82 (withWaits ((waits 27 70 t1).set f 261) (sim false [])).host).1
      decide (f < 82) && decide (w.getD f 0 > 260) && (List.range f).all (fun j => decide (w.getD j 0 ≤ 260))) = true := by
  decide +kernel

/-- T12: bit-high parts of 0 and of exactly 260, with the checksum of T1. -/
theorem witness_tsd_sample :
    let w := (drawPulses 82 (withWaits (waits 0 260 t1) (sim false [])).host).1
    let b := pulseByte w
    (∀ j < 82, w.getD j 0 ≤ 260) ∧ b 4 = (b 0 + b 1 + b 2 + b 3) % 256 := by decide

/-- T8, with bit-high parts of 46 and 47. -/
theorem witness_tsd_checksum :
    let w := (drawPulses 82 (withWaits (waits 46 47 t8) (sim false [])).host).1
    let b := pulseByte w
    (∀ j < 82, w.getD j 0 ≤ 260) ∧ b 4 ≠ (b 0 + b 1 + b 2 + b 3) % 256 := by decide

theorem witness_illegal_word : (direct 0xFF).run = false ∧ turnOf (direct 0xFF) = .orc ∧
    (afterTurn (direct 0xFF)).host.drawCommand = (0xFF, (sim false []).host) ∧
    decodeFrom .host 0xFF = .error .reservedOp ∧ orcWord (atRow .p16 0) = some 0xC1 := by decide

theorem witness_exec_next : (∃ t, exec .nop (sim false []) = .next t) ∧ (∃ t, exec .rotStep (sim false []) = .next t) ∧
    Instr.nop ≠ .rotStep := ⟨⟨_, rfl⟩, ⟨_, rfl⟩, by decide⟩

/-- The three kinds of raise: plain, with `RXLEN` cleared, with `TXBUF` filled. -/
theorem witness_raising :
    [(.peEncode 2 .S, sim false []), (.fppRead, withRead .transportError (sim false [])),
      (.fppCmd, withWrite .transportError (sim false []))].all (fun p : Instr × State =>
        match exec p.1 p.2 with
        | .next t => decide (p.1 ≠ .rotStep) && decide (t.status ≠ .ok)
        | .fault _ => false
        | .refused _ => false) = true := by decide

/-- The three clauses of `FATAL`: set before, set by the step, clear throughout. -/
theorem witness_fatal :
    (after { direct 0x00 with fatal := true, fatalCode := .invalidSlot }).map (·.fatal) = some true ∧
    (direct 0x72).fatal = false ∧ (after (direct 0x72)).map (·.fatal) = some true ∧
    (direct 0x00).fatal = false ∧ (after (direct 0x00)).map (·.fatal) = some false ∧
    turnOf (direct 0x00) = .orc ∧ turnOf (direct 0x72) = .orc := by decide

theorem witness_step_runs :
    ((direct 0x60).run = false ∧ turnOf (direct 0x60) = .orc ∧
      (afterTurn (direct 0x60)).host.drawCommand = (0x60, (sim false []).host) ∧ decode 0x60 = .ok .raaAdv ∧
      Instr.raaAdv ≠ .rotStep) ∧
    ((atRow .p2 59).run = true ∧ turnOf (atRow .p2 59) = .orc ∧ orcWord (atRow .p2 59) = some 0x10 ∧
      decode 0x10 = .ok .tsdDecode ∧ attAfterRow (atRow .p2 59).orcPc (atRow .p2 59).att = some 60) ∧
    turnOf (sim true [.rot]) = .rot := by decide

theorem witness_reset : turnOf (sim true [.reset false]) = .reset false ∧ turnOf (sim false [.reset true]) = .reset true := by
  decide

/-- A state of every clause of the table, at the boundary values of `ATT`. -/
theorem witness_sequencer :
    [(OrcPc.p0, (0 : Fin 61)), (.p1, 0), (.p2, 58), (.p2, 59), (.p3, 1), (.p4, 59), (.p5, 58), (.p5, 59), (.p6, 59),
      (.p6, 60), (.p7, 60), (.p8, 59), (.p9, 0), (.p10, 0), (.p11, 0), (.p12, 0), (.p13, 0), (.p14, 0), (.p15, 0),
      (.p16, 60), (.idle, 0), (.halt, 0)].all (fun p =>
        let s := atRow p.1 p.2
        s.run && decide (turnOf s = .orc) && decide (s.orcPc = p.1) && decide (s.att = p.2)) = true ∧
    58 + 1 < 60 ∧ 59 + 1 = 60 := by decide

theorem witness_run_mode : (sim true []).run = true := by decide

theorem witness_direct_mode : (direct 0x60).run = false ∧ turnOf (direct 0x60) = .orc ∧
    (after (direct 0x60)).isSome = true := by decide

theorem witness_halt : (atRow .halt 0).run = true ∧ (atRow .halt 0).orcPc = .halt ∧ turnOf (atRow .halt 0) = .orc := by
  decide

theorem witness_rot_turn : turnOf (sim false [.rot]) = .rot ∧ (after (sim false [.rot])).isSome = true ∧
    Instr.peEncode 1 .S ≠ .rotStep := by decide

/-- Two states that agree on `ROT_IDX` and the slots and differ in a private register of the ORC side. -/
theorem witness_rot_agree :
    let s := sim false [.rot]
    let s' := { s with sx := 9, status := .checksum, off := 3 }
    turnOf s = .rot ∧ turnOf s' = .rot ∧ s.rotIdx = s'.rotIdx ∧ s.slots = s'.slots ∧ (after s).isSome = true ∧
      (after s').isSome = true ∧ s ≠ s' := by decide

theorem witness_sixty_first : (atRow .p2 60).run = true ∧ turnOf (atRow .p2 60) = .orc ∧ (atRow .p2 60).att = 60 ∧
    (atRow .p2 60).orcPc = .p2 ∧ (atRow .p5 60).orcPc = .p5 := by decide

/-- The smallest capacity that R6 allows. -/
theorem witness_smallest_capacity : 32 ≤ (simParams 32).rxcap := by decide

/-- The invariant after reset, in either mode, whatever the host will answer. -/
theorem witness_inv (run : Bool) (host : Inputs) : Inv (State.afterReset (simParams 64) run host) := by
  refine ⟨⟨Nat.le_of_ble_eq_true rfl, rfl, nofun, Nat.zero_le _⟩, ?_, ?_, ⟨rfl, fun _ => rfl⟩, ?_⟩
  · intro k
    fin_cases k <;> rfl
  · cases run <;> simp [modeOk, State.afterReset]
  · intro h
    cases run
    · cases h
    · exact ⟨rfl, rfl, rfl, Fin.le_refl 0, Fin.le_refl 0, rfl⟩

/-- A step from a state of the invariant that ends in a next state, in either mode. -/
theorem witness_inv_step : (after (sim true [.rot])).isSome = true ∧ (after (withAux 1 (sim true [.orc]))).isSome = true := by
  decide

theorem witness_rotation : rotationOk (sim true [.rot]) ∧ (after (sim true [.rot])).isSome = true :=
  ⟨⟨rfl, rfl⟩, rfl⟩

theorem witness_broadcast : BroadcastOk (sim true [.rot]) ∧ (after (sim true [.rot])).isSome = true :=
  ⟨⟨(witness_inv true _).headers, fun k => .inl (by fin_cases k <;> rfl), nofun⟩, rfl⟩

/-- A step that packs a record, in either mode, and steps that pack none: another operation, and a ROT step. -/
theorem witness_encodes : encodesNow (direct 0x75) 1 .AV ∧ (after (direct 0x75)).isSome = true ∧
    encodesNow (atRow .p10 0) 0 .S ∧ (after (atRow .p10 0)).isSome = true ∧
    (∀ bank, ¬ encodesNow (direct 0x00) 0 bank) ∧ (after (direct 0x00)).isSome = true ∧
    (∀ bank, ¬ encodesNow (sim true [.rot]) 0 bank) := by
  refine ⟨⟨rfl, 0x75, rfl, rfl⟩, rfl, ⟨rfl, 0x70, rfl, rfl⟩, rfl, ?_, rfl, ?_⟩
  · rintro bank ⟨-, w, hw, hd⟩
    cases hw
    cases hd
  · rintro bank ⟨ht, -⟩
    cases ht

/-- A reset that steps. -/
theorem witness_reset_step : turnOf (sim true [.reset false]) = .reset false ∧
    (after (sim true [.reset false])).isSome = true := by decide

/-- A run from a fresh state in which a slot is packed, then handed over. -/
def encodeThenAdvertise : State :=
  { sim false [.orc, .rot] with host := { (sim false [.orc, .rot]).host with cmds := [0x70] } }

theorem witness_one_encode : encodeThenAdvertise.ev = [] ∧
    (∀ k, encodeThenAdvertise.slot k = ⟨encodeThenAdvertise.cfg.hdr, zeroRecord⟩) ∧
    ∃ t, core.run 2 encodeThenAdvertise = .next t ∧ ∃ bytes, .advertise 0 bytes ∈ t.ev := by
  refine ⟨rfl, by decide, _, rfl, _, List.mem_cons_self ..⟩

/-- A state of the invariant in run mode with no turn in the queue. -/
theorem witness_fairness : Inv (sim true []) ∧ (sim true []).run = true ∧ (sim true []).host.turns = [] :=
  ⟨witness_inv true _, rfl, rfl⟩

theorem witness_cycle : cycleOk (withAux 1 (sim true [.orc])) ∧ (after (withAux 1 (sim true [.orc]))).isSome = true :=
  ⟨fun _ => ⟨rfl, rfl⟩, rfl⟩

theorem witness_descend : Inv (withAux 1 (sim true [.orc])) ∧ (withAux 1 (sim true [.orc])).run = true ∧
    turnOf (withAux 1 (sim true [.orc])) = .orc :=
  ⟨witness_inv true _, rfl, rfl⟩

/-- Five turns of ROT, then 310 of the sequencer. -/
def cycleTurns : List Turn := List.replicate 5 .rot ++ List.replicate 310 .orc

theorem witness_cycle_turns : Inv (sim true cycleTurns) ∧ (sim true cycleTurns).run = true ∧
    (sim true cycleTurns).orcPc = .p0 ∧ (sim true cycleTurns).host.turns = cycleTurns ++ [] ∧
    (∀ run, Turn.reset run ∉ cycleTurns) ∧ cycleTurns.count .orc = 310 := by
  refine ⟨witness_inv true _, rfl, rfl, (List.append_nil _).symm, fun run h => ?_, by
    rw [cycleTurns, List.count_append, List.count_replicate, List.count_replicate]
    rfl⟩
  rcases List.mem_append.1 h with h | h <;> cases List.eq_of_mem_replicate h

end Sys2Proof.Tests
end

/-! ### What every operation leaves, and how it ends -/

namespace Sys2Proof.Machine

/-- From `s` to `t` only registers and memories changed that the operation `i` may write (10_state.md R20 to R38 and R50
to R52): its own results, `STATUS`, `FATAL`, `FATAL_CODE`, the history and the inputs taken. -/
structure WritesOnly (i : Instr) (s t : State) : Prop where
  sa : i ≠ .tsdDecode → t.sa = s.sa
  sb : i ≠ .fppParse → t.sb = s.sb
  sx : i ≠ .auxSample → t.sx = s.sx
  ava : i ≠ .raaAvg .A → t.ava = s.ava
  avb : i ≠ .raaAvg .B → t.avb = s.avb
  avx : i ≠ .raaAvg .X → t.avx = s.avx
  cmdOp : t.cmdOp = s.cmdOp
  cmdArg : t.cmdArg = s.cmdArg
  orcPc : t.orcPc = s.orcPc
  att : t.att = s.att
  run : t.run = s.run
  cfg : t.cfg = s.cfg
  off : i ≠ .raaAdv → t.off = s.off
  rotIdx : i ≠ .rotStep → t.rotIdx = s.rotIdx
  cntA : i ≠ .raaPush .A → t.cntA = s.cntA
  cntB : i ≠ .raaPush .B → t.cntB = s.cntB
  cntX : i ≠ .raaPush .X → t.cntX = s.cntX
  histA : i ≠ .raaPush .A → t.histA = s.histA
  histB : i ≠ .raaPush .B → t.histB = s.histB
  histX : i ≠ .raaPush .X → t.histX = s.histX
  nfail : i ≠ .waitRetry → i ≠ .waitCycle → t.nfail = s.nfail
  rxLen : i ≠ .fppRead → t.rxLen = s.rxLen
  rxBuf : i ≠ .fppRead → t.rxBuf = s.rxBuf
  txBuf : i ≠ .fppCmd → t.txBuf = s.txBuf
  band : i ≠ .indBand → t.band = s.band
  slot : ∀ k : Fin 2, (∀ bank, i ≠ .peEncode k.val bank) → t.slot k = s.slot k
  header : ∀ k : Fin 2, (t.slot k).header = (s.slot k).header

/-- The end of `TSD.DECODE`: the sample, or a raise of `CHECKSUM` (R137). -/
theorem tsdFinish_cases (w : List Nat) (s : State) :
    (∃ a, tsdFinish w s = complete { s with sa := a }) ∨
      tsdFinish w s = raise (encode .tsdDecode) .checksum s := by
  simp only [tsdFinish]
  split
  · exact .inl ⟨_, rfl⟩
  · exact .inr rfl

/-- `TSD.DECODE` writes `SA` at most. -/
theorem tsdDecode_writesOnly (s : State) : WritesOnly .tsdDecode s (tsdDecode s) := by
  rcases tsdDecode_cases s with ⟨f, -, -, -, e⟩ | ⟨-, e⟩ <;> rw [e]
  · constructor <;> simp [State.slot]
  · rcases tsdFinish_cases _ _ with ⟨a, e⟩ | e <;> rw [e] <;> constructor <;> simp [State.slot]

/-- `RAA.PUSH` writes the window and the count of its channel. -/
theorem raaPush_writesOnly (ch : Channel) (s : State) : WritesOnly (.raaPush ch) s (raaPush ch s) := by
  cases ch <;> constructor <;> simp [raaPush, State.slot]

/-- `RAA.AVG` writes the average of its channel at most. -/
theorem raaAvg_writesOnly (ch : Channel) (s : State) : WritesOnly (.raaAvg ch) s (raaAvg ch s) := by
  unfold raaAvg
  split
  · constructor <;> simp
  · cases ch <;> constructor <;> simp [writeMean, State.slot]

/-- `PE.ENCODE` writes the record of its slot at most. -/
theorem peEncode_writesOnly (kind : Nat) (bank : Bank) (s : State) :
    WritesOnly (.peEncode kind bank) s (peEncode kind bank s) := by
  unfold peEncode
  split
  · next hk =>
    constructor
    case slot =>
      intro k hne
      have hk : (⟨kind, hk⟩ : Fin 2) ≠ k := fun e => hne bank (by rw [← e])
      rw [complete_slot, State.writeRecord_slot, if_neg hk]
    all_goals simp
  · constructor <;> simp

/-- Each operation writes its own registers and memories only. -/
theorem completed_writesOnly (i : Instr) (s : State) : WritesOnly i s (completed i s) := by
  cases i with
  | tsdDecode => exact tsdDecode_writesOnly s
  | raaPush ch => exact raaPush_writesOnly ch s
  | raaAvg ch => exact raaAvg_writesOnly ch s
  | peEncode kind bank => exact peEncode_writesOnly kind bank s
  | fppParse =>
    simp only [completed, fppParse]
    split <;> constructor <;> simp [State.slot]
  | fppCmd =>
    simp only [completed, fppCmd]
    split <;> constructor <;> simp [State.slot]
  | fppRead =>
    simp only [completed, fppRead]
    split <;> constructor <;> simp [State.slot]
  | indBand => constructor <;> simp [completed, indBand, State.slot]
  | auxSample => constructor <;> simp [completed, auxSample, State.slot]
  | raaAdv => constructor <;> simp [completed, raaAdv, State.slot]
  | waitRetry => constructor <;> simp [completed, waitRetry, State.slot]
  | waitCycle => constructor <;> simp [completed, waitCycle, State.slot]
  | nop => constructor <;> simp [completed]
  | rotStep => constructor <;> simp [completed]

/-- From `s` to `t` an operation completed with a status out of `sts`, and `FATAL` and `FATAL_CODE` follow that status as
in a raise (00_scope.md R12, R29, R274); `OK` changes neither. -/
structure EndsWith (sts : List Status) (s t : State) : Prop where
  status : t.status ∈ sts
  fatal : t.fatal = fatalAfter t.status s.fatal
  fatalCode : t.fatalCode = fatalCodeAfter t.status s.fatal s.fatalCode

/-- Completion with `OK` of a state that kept `FATAL` and `FATAL_CODE`. -/
theorem complete_endsWith {sts : List Status} {s u : State} (h : .ok ∈ sts) (hf : u.fatal = s.fatal)
    (hc : u.fatalCode = s.fatalCode) : EndsWith sts s (complete u) :=
  ⟨h, by simp [fatalAfter, Status.isFatal, hf], by simp [fatalCodeAfter, Status.isFatal, hc]⟩

/-- A raise in a state that kept `FATAL` and `FATAL_CODE`. -/
theorem raise_endsWith {sts : List Status} {s u : State} {op : Byte} {st : Status} (h : st ∈ sts)
    (hf : u.fatal = s.fatal) (hc : u.fatalCode = s.fatalCode) : EndsWith sts s (raise op st u) :=
  ⟨h, by simp [hf], by simp [hf, hc]⟩

/-- What `FPP.PARSE` rejects a buffer with. -/
theorem fppParseBuffer_error {buf : List Byte} {st : Status} (h : fppParseBuffer buf = .error st) :
    st ∈ [Status.checksum, .frameNotFound, .incompleteFrame] := by
  unfold fppParseBuffer at h
  split at h
  · cases h; simp
  · split at h
    · split at h <;> cases h
      simp
    · cases h; simp

/-- Every operation but `ROT.STEP` may complete with `OK` (R271). -/
theorem ok_mem_allowedStatuses {i : Instr} (hi : i ≠ .rotStep) : .ok ∈ allowedStatuses i := by
  cases i <;> simp_all [allowedStatuses]

/-- R271, R274: every operation but `ROT.STEP` ends with a status of its row of the table. -/
theorem completed_endsWith {i : Instr} (s : State) (hi : i ≠ .rotStep) :
    EndsWith (allowedStatuses i) s (completed i s) := by
  have hok := ok_mem_allowedStatuses hi
  cases i with
  | nop | raaAdv | indBand | auxSample | waitRetry | waitCycle => exact complete_endsWith hok rfl rfl
  | rotStep => exact absurd rfl hi
  | raaPush ch => cases ch <;> exact complete_endsWith hok rfl rfl
  | tsdDecode =>
    simp only [completed]
    rcases tsdDecode_cases s with ⟨f, -, -, -, e⟩ | ⟨-, e⟩ <;> rw [e]
    · exact raise_endsWith (by split <;> simp [allowedStatuses]) rfl rfl
    · rcases tsdFinish_cases _ _ with ⟨a, e⟩ | e <;> rw [e]
      · exact complete_endsWith hok rfl rfl
      · exact raise_endsWith (by simp [allowedStatuses]) rfl rfl
  | fppParse =>
    simp only [completed, fppParse]
    split
    · next st hst => exact raise_endsWith (List.mem_cons_of_mem _ (fppParseBuffer_error hst)) rfl rfl
    · exact complete_endsWith hok rfl rfl
  | fppCmd =>
    simp only [completed, fppCmd]
    split
    · exact complete_endsWith hok rfl rfl
    · exact raise_endsWith (by simp [allowedStatuses]) rfl rfl
  | raaAvg ch =>
    simp only [completed, raaAvg]
    split
    · exact raise_endsWith (by simp [allowedStatuses]) rfl rfl
    · cases ch <;> exact complete_endsWith hok rfl rfl
  | peEncode kind bank =>
    simp only [completed, peEncode]
    split
    · exact complete_endsWith hok rfl rfl
    · exact raise_endsWith (by simp [allowedStatuses]) rfl rfl
  | fppRead =>
    simp only [completed, fppRead]
    split
    · exact raise_endsWith (by simp [allowedStatuses]) rfl rfl
    · exact complete_endsWith hok rfl rfl

/-- R280: an operation ends with a fatal status only where it averages an empty window or encodes to no slot. -/
theorem fatal_status_cases {i : Instr} {s : State} (hi : i ≠ .rotStep)
    (hf : (completed i s).status.isFatal = true) :
    (∃ ch, i = .raaAvg ch ∧ s.cnt ch = 0) ∨ (∃ kind bank, i = .peEncode kind bank ∧ 2 ≤ kind) := by
  have hst := (completed_endsWith s hi).status
  cases i with
  | raaAvg ch =>
    by_cases h0 : s.cnt ch = 0
    · exact .inl ⟨ch, rfl, h0⟩
    · simp [completed, raaAvg, h0, Status.isFatal] at hf
  | peEncode kind bank =>
    by_cases hk : kind < Config.numSlots
    · simp [completed, peEncode, hk, Status.isFatal] at hf
    · exact .inr ⟨kind, bank, rfl, Nat.le_of_not_lt hk⟩
  | rotStep => exact absurd rfl hi
  | _ =>
    generalize (completed _ s).status = st at hf hst
    cases st <;> simp_all [allowedStatuses, Status.isFatal]

end Sys2Proof.Machine

/-! ### O28: a step runs the decoded operation -/

namespace Sys2Proof.Machine

/-- A legal word other than `ROT.STEP` is legal from every issuer (R93 d). -/
theorem decodeFrom_of_decode {w : Byte} {i : Instr} (issuer : Issuer) (h : decode w = .ok i) (hi : i ≠ .rotStep) :
    decodeFrom issuer w = .ok i := by
  simp [decodeFrom, h, hi]

/-- On the host's turn in direct mode the word on the command port is issued. -/
theorem step_of_hostTurn {s : State} {w : Byte} {host : Inputs} (hr : s.run = false) (ht : turnOf s = .orc)
    (hw : (afterTurn s).host.drawCommand = (w, host)) : step s = issue .host w { s with host := host } := by
  rw [step_eq_takeTurn, ht]
  simp only [takeTurn, afterTurn_run, hr, hostTurn, hw]
  rfl

/-- On ROT's turn the step is one `ROT.STEP`. -/
theorem step_of_rotTurn {s : State} (ht : turnOf s = .rot) : step s = .next (rotStep (afterTurn s)) := by
  rw [step_eq_takeTurn, ht]
  exact rotTurn_eq _

/-- Settles O28: on each kind of turn the word put forward is legal, and a legal word is executed. -/
theorem stepRunsTheDecodedOperation : Obligations.StepRunsTheDecodedOperation := by
  unfold Obligations.StepRunsTheDecodedOperation
  refine ⟨?direct, ?run, ?rot⟩
  case direct =>
    intro s w host i hr ht hw hd hi
    rw [step_of_hostTurn hr ht hw, issue_legal (decodeFrom_of_decode .host hd hi)]
  case run =>
    intro s w i a hr ht hw hd ha
    have hrow : i = rowInstr s :=
      Except.ok.inj (hd.symm.trans (decode_of_decodeFrom (orcWord_decodes hw)))
    have hne : ¬ (s.orcPc = .idle ∨ s.orcPc = .halt) := by
      rw [← orcWord_none_iff, hw]
      exact nofun
    rw [step_of_row hr ht (fun h => hne (.inl h)) (fun h => hne (.inr h)) ha, hrow, exec_eq_completed]
    rfl
  case rot =>
    intro s ht
    rw [step_of_rotTurn ht, exec_eq_completed]
    rfl

end Sys2Proof.Machine

/-! ### O40: the invariant, component by component -/

namespace Sys2Proof.Machine

/-! #### Memory, headers, mode and `FATAL` through an operation -/

/-- The memory invariant reads the receive buffer, its length and the capacity only. -/
theorem memoryOk_of_kept {s t : State} (h : memoryOk s) (hc : t.cfg = s.cfg) (hb : t.rxBuf = s.rxBuf)
    (hl : t.rxLen = s.rxLen) : memoryOk t := by
  simpa only [memoryOk, hc, hb, hl] using h

/-- R150: `FPP.READ` keeps at most `RXCAP` bytes, so no index goes beyond the capacity. -/
theorem memoryOk_fppRead {s : State} (h : memoryOk s) : memoryOk (fppRead s) := by
  obtain ⟨hcap, hwf, hidx, -⟩ := h
  simp only [fppRead]
  split
  · exact ⟨hcap, hwf, hidx, Nat.zero_le _⟩
  · next r _ =>
    have hlen : (r.take s.cfg.rxcap).length ≤ s.cfg.rxcap := List.length_take_le ..
    refine ⟨hcap, Memory.wf_writeBytes hwf _ _, fun c hc => ?_, hlen⟩
    rcases Memory.mem_writeBytes hc with hc | ⟨-, hc⟩
    · exact hidx c hc
    · exact lt_of_lt_of_le (by simpa using hc) hlen

/-- Every operation keeps the memory invariant. -/
theorem memoryOk_completed {s : State} (i : Instr) (h : memoryOk s) : memoryOk (completed i s) := by
  have hw := completed_writesOnly i s
  by_cases hi : i = .fppRead
  · subst hi
    exact memoryOk_fppRead h
  · exact memoryOk_of_kept h hw.cfg (hw.rxBuf hi) (hw.rxLen hi)

/-- No operation writes a slot's header (R206). -/
theorem headersOk_completed {s : State} (i : Instr) (h : headersOk s) : headersOk (completed i s) := fun k => by
  have hw := completed_writesOnly i s
  rw [hw.header, hw.cfg, h k]

/-- R29, R274: `FATAL` and `FATAL_CODE` still belong together once a status has been raised. -/
theorem fatalOk_of_raised {s t : State} {st : Status} (h : fatalOk s) (hf : t.fatal = fatalAfter st s.fatal)
    (hc : t.fatalCode = fatalCodeAfter st s.fatal s.fatalCode) : fatalOk t := by
  obtain ⟨hiff, hok⟩ := h
  simp only [fatalOk, hf, hc, fatalAfter, fatalCodeAfter]
  cases hs : s.fatal <;> cases hst : st.isFatal <;> simp_all

/-- Every operation keeps `FATAL` and `FATAL_CODE` together. -/
theorem fatalOk_completed {s : State} {i : Instr} (hi : i ≠ .rotStep) (h : fatalOk s) : fatalOk (completed i s) :=
  have he := completed_endsWith s hi
  fatalOk_of_raised h he.fatal he.fatalCode

/-! #### The rows of the ORC program -/

/-- The value of `bumpCnt`. -/
@[simp] theorem bumpCnt_val (c : Fin 11) : (bumpCnt c).val = min (c.val + 1) 10 := rfl

/-- The value of `bumpNfail`. -/
@[simp] theorem bumpNfail_val (n : Fin 128) : (bumpNfail n).val = min (n.val + 1) 127 := rfl

/-- The state of the sequencer whose row pushes a channel (R245). -/
def pushRow : Channel → OrcPc
  | .A => .p3
  | .B => .p7
  | .X => .p1

/-- Each channel is pushed in one row. -/
theorem rowInstr_eq_raaPush_iff (s : State) (ch : Channel) : rowInstr s = .raaPush ch ↔ s.orcPc = pushRow ch := by
  cases hp : s.orcPc <;> simp only [rowInstr, hp]
  case p11 | p12 => split <;> cases ch <;> simp [pushRow]
  all_goals cases ch <;> simp [pushRow]

/-- Which rows average a channel: each where its window is not empty, but for `P9`, which does not look (R245, R251). -/
theorem rowInstr_eq_raaAvg {s : State} {ch : Channel} (h : rowInstr s = .raaAvg ch) :
    s.cnt ch ≠ 0 ∨ (s.orcPc = .p9 ∧ ch = .X) := by
  cases hp : s.orcPc <;> simp only [rowInstr, hp] at h
  case p9 => cases h; exact .inr ⟨rfl, rfl⟩
  case p11 | p12 =>
    split at h <;> cases h
    next hc => exact .inl (Fin.pos_iff_ne_zero.1 hc)
  all_goals cases h

/-- The rows encode to the two slots only (R245). -/
theorem rowInstr_eq_peEncode {s : State} {kind : Nat} {bank : Bank} (h : rowInstr s = .peEncode kind bank) :
    kind < 2 := by
  cases hp : s.orcPc <;> simp only [rowInstr, hp] at h
  case p10 | p13 => cases h; decide
  case p11 | p12 => split at h <;> cases h
  all_goals cases h

/-- Which rows wait for a retry. -/
theorem rowInstr_eq_waitRetry_iff (s : State) : rowInstr s = .waitRetry ↔ s.orcPc = .p4 ∨ s.orcPc = .p8 := by
  cases hp : s.orcPc <;> simp only [rowInstr, hp]
  case p11 | p12 => split <;> simp
  all_goals simp

/-- Which row waits for the end of the cycle. -/
theorem rowInstr_eq_waitCycle_iff (s : State) : rowInstr s = .waitCycle ↔ s.orcPc = .p16 := by
  cases hp : s.orcPc <;> simp only [rowInstr, hp]
  case p11 | p12 => split <;> simp
  all_goals simp

/-- The state in which the operation of the row of `s` completes. -/
abbrev rowDone (s : State) : State := completed (rowInstr s) (afterTurn s)

/-- `CNT_A` through a row. -/
theorem rowDone_cntA (s : State) : (rowDone s).cntA = if s.orcPc = .p3 then bumpCnt s.cntA else s.cntA := by
  have hiff := rowInstr_eq_raaPush_iff s .A
  split
  · next hp => rw [rowDone, hiff.2 hp]; rfl
  · next hp => exact (completed_writesOnly _ _).cntA fun h => hp (hiff.1 h)

/-- `CNT_B` through a row. -/
theorem rowDone_cntB (s : State) : (rowDone s).cntB = if s.orcPc = .p7 then bumpCnt s.cntB else s.cntB := by
  have hiff := rowInstr_eq_raaPush_iff s .B
  split
  · next hp => rw [rowDone, hiff.2 hp]; rfl
  · next hp => exact (completed_writesOnly _ _).cntB fun h => hp (hiff.1 h)

/-- `CNT_X` through a row. -/
theorem rowDone_cntX (s : State) : (rowDone s).cntX = if s.orcPc = .p1 then bumpCnt s.cntX else s.cntX := by
  have hiff := rowInstr_eq_raaPush_iff s .X
  split
  · next hp => rw [rowDone, hiff.2 hp]; rfl
  · next hp => exact (completed_writesOnly _ _).cntX fun h => hp (hiff.1 h)

/-- `NFAIL` through a row. -/
theorem rowDone_nfail (s : State) :
    (rowDone s).nfail =
      if s.orcPc = .p4 ∨ s.orcPc = .p8 then bumpNfail s.nfail else if s.orcPc = .p16 then 0 else s.nfail := by
  have hretry := rowInstr_eq_waitRetry_iff s
  have hcycle := rowInstr_eq_waitCycle_iff s
  split
  · next hp => rw [rowDone, hretry.2 hp]; rfl
  · next hp =>
    split
    · next hp' => rw [rowDone, hcycle.2 hp']; rfl
    · next hp' => exact (completed_writesOnly _ _).nfail (fun h => hp (hretry.1 h)) fun h => hp' (hcycle.1 h)

/-- The last row of a cycle completes with `OK`. -/
theorem rowDone_status_of_p16 {s : State} (h : s.orcPc = .p16) : (rowDone s).status = .ok := by
  rw [rowDone, (rowInstr_eq_waitCycle_iff s).2 h]
  rfl

/-- R254 d: from the second row on `CNT_X` is not 0, so no row ends with a fatal status. -/
theorem rowDone_status_not_fatal {s : State} (h : seqOk s) : (rowDone s).status.isFatal = false := by
  by_contra hf
  rcases fatal_status_cases (rowInstr_ne_rotStep s) (Bool.eq_true_of_not_eq_false hf) with
    ⟨ch, hi, h0⟩ | ⟨kind, bank, hi, hk⟩
  · rcases rowInstr_eq_raaAvg hi with hne | ⟨hp, rfl⟩
    · exact hne (by cases ch <;> exact h0)
    · have hX : s.cntX = 0 := h0
      simp only [seqOk, hp, hX] at h
      omega
  · exact absurd (rowInstr_eq_peEncode hi) (Nat.not_lt.2 hk)

/-- `FATAL` stays clear through a row. -/
theorem rowDone_fatal {s : State} (h : seqOk s) (hf : s.fatal = false) : (rowDone s).fatal = false := by
  simp [(completed_endsWith (afterTurn s) (rowInstr_ne_rotStep s)).fatal, fatalAfter, rowDone_status_not_fatal h, hf]

/-- R245: `ATT` counts an attempt in `P2` and `P5` only. -/
theorem attAfterRow_val {pc : OrcPc} {att a : Fin 61} (h : attAfterRow pc att = some a) :
    a.val = if pc = .p2 ∨ pc = .p5 then att.val + 1 else att.val := by
  unfold attAfterRow at h
  split at h
  · next hp =>
    split at h
    · cases h; simp [hp]
    · cases h
  · next hp => cases h; simp [hp]

/-- R252, R254: a row leads from the bounds of its state to the bounds of the next one. -/
theorem seqOk_sequence {s : State} {a : Fin 61} (h : seqOk s) (hf : s.fatal = false)
    (ha : attAfterRow s.orcPc s.att = some a) : seqOk (sequence s.orcPc a (rowDone s)) := by
  have hfat := rowDone_fatal h hf
  have hatt := attAfterRow_val ha
  have hA := rowDone_cntA s
  have hB := rowDone_cntB s
  have hX := rowDone_cntX s
  have hN := rowDone_nfail s
  have hS := @rowDone_status_of_p16 s
  have hbumpA := bumpCnt_val s.cntA
  have hbumpB := bumpCnt_val s.cntB
  have hbumpX := bumpCnt_val s.cntX
  generalize rowDone s = u at hfat hA hB hX hN hS ⊢
  have h60 : Config.maxAttempts = 60 := rfl
  cases hp : s.orcPc
  case idle | halt => simp [seqOk, hp] at h
  case p2 | p5 | p6 =>
    cases hok : u.status == .ok <;> by_cases hlt : a.val < Config.maxAttempts <;>
    · simp [hp, hok, hlt, seqOk, hfat, orcNext, attAtEnd, hA, hB, hX, hN, pushFits] at h hatt ⊢
      omega
  all_goals
    simp [hp, seqOk, hfat, orcNext, attAtEnd, hA, hB, hX, hN, hS, pushFits] at h hatt ⊢
    omega

/-! #### The invariant through each kind of step -/

/-- In a state within the bounds the sequencer is in one of `P0` to `P16`. -/
theorem seqOk_active {s : State} (h : seqOk s) : s.orcPc ≠ .idle ∧ s.orcPc ≠ .halt := by
  constructor <;> intro hp <;> simp [seqOk, hp] at h

/-- The invariant holds after every reset (R54, R300). -/
theorem inv_afterReset {cfg : Params} (run : Bool) (host : Inputs) (hcap : 32 ≤ cfg.rxcap) :
    Inv (State.afterReset cfg run host) where
  memory := ⟨hcap, rfl, nofun, Nat.zero_le _⟩
  headers := fun k => by simp
  mode := by cases run <;> simp [modeOk]
  fatal := ⟨rfl, fun _ => rfl⟩
  runMode := fun hr => by
    cases hr
    exact ⟨rfl, rfl, rfl, Fin.le_refl 0, Fin.le_refl 0, rfl⟩

/-- The invariant does not look at the inputs to come. -/
theorem inv_withHost {s : State} (h : Inv s) (host : Inputs) : Inv { s with host := host } :=
  ⟨h.memory, h.headers, h.mode, h.fatal, h.runMode⟩

/-- `ROT.STEP` keeps the invariant: it writes `ROT_IDX` and the history alone (R70, R215). -/
theorem inv_rotStep {s : State} (h : Inv s) : Inv (rotStep s) :=
  ⟨h.memory, h.headers, h.mode, h.fatal, h.runMode⟩

/-- A row of the ORC program keeps the invariant. -/
theorem inv_sequence {s : State} {a : Fin 61} (h : Inv s) (hr : s.run = true)
    (ha : attAfterRow s.orcPc s.att = some a) : Inv (sequence s.orcPc a (rowDone s)) := by
  obtain ⟨hfatal, -, hseq⟩ := h.runMode hr
  have ht : Inv (afterTurn s) := inv_withHost h _
  have hseq' := seqOk_sequence hseq hfatal ha
  have hrun : (sequence s.orcPc a (rowDone s)).run = true := (completed_writesOnly _ _).run.trans hr
  exact {
    memory := memoryOk_completed (rowInstr s) ht.memory
    headers := headersOk_completed (rowInstr s) ht.headers
    mode := iff_of_false (seqOk_active hseq').1 (ne_false_of_eq_true hrun)
    fatal := fatalOk_completed (rowInstr_ne_rotStep s) ht.fatal
    runMode := fun _ => ⟨rowDone_fatal hseq hfatal, rowDone_status_not_fatal hseq, hseq'⟩ }

/-- Every operation of direct mode keeps the invariant (R249). -/
theorem inv_completed_direct {s : State} {i : Instr} (h : Inv s) (hr : s.run = false) (hi : i ≠ .rotStep) :
    Inv (completed i s) := by
  have hw := completed_writesOnly i s
  exact {
    memory := memoryOk_completed i h.memory
    headers := headersOk_completed i h.headers
    mode := by rw [modeOk, hw.orcPc, hw.run]; exact h.mode
    fatal := fatalOk_completed hi h.fatal
    runMode := fun ht => absurd (hw.run.symm.trans ht) (ne_true_of_eq_false hr) }

/-- A raise in direct mode keeps the invariant. -/
theorem inv_raise_direct {s : State} (op : Byte) (st : Status) (h : Inv s) (hr : s.run = false) :
    Inv (raise op st s) where
  memory := h.memory
  headers := h.headers
  mode := h.mode
  fatal := fatalOk_of_raised h.fatal rfl rfl
  runMode := fun ht => absurd ht (ne_true_of_eq_false hr)

/-- Every step keeps the invariant. -/
theorem inv_step {s t : State} (h : Inv s) (hst : step s = .next t) : Inv t := by
  rcases step_operations hst with ⟨run, -, e⟩ | ⟨e, -⟩ | ⟨-, hr, -, -, a, ha, e⟩ |
    ⟨-, hr, host, i, hi, e⟩ | ⟨-, hr, host, w, e⟩ <;> subst e
  · exact inv_afterReset run _ h.memory.1
  · exact inv_rotStep (inv_withHost h _)
  · exact inv_sequence h hr ha
  · exact inv_completed_direct (inv_withHost h host) hr hi
  · exact inv_raise_direct w .illegalOp (inv_withHost h host) hr

/-- Settles O40, by the five kinds of step. -/
theorem invariantIsKeptByEveryStep : Obligations.InvariantIsKeptByEveryStep := fun _ _ => inv_step

end Sys2Proof.Machine

/-! ### O48, O49: ROT and the sequencer always step again -/

namespace Sys2Proof.Machine

/-! #### Progress -/

/-- Whoever issues a word, and whatever the word, there is a next state. -/
theorem issue_next (issuer : Issuer) (w : Byte) (s : State) : ∃ t, issue issuer w s = .next t := by
  cases hd : decodeFrom issuer w with
  | ok i => exact ⟨_, (issue_legal hd s).trans (exec_eq_completed i s)⟩
  | error e => exact ⟨_, issue_illegal hd s⟩

/-- R252: within the bounds an attempt never begins with `ATT = 60`. -/
theorem attAfterRow_of_seqOk {s : State} (h : seqOk s) : ∃ a, attAfterRow s.orcPc s.att = some a := by
  unfold attAfterRow
  split
  · next hp =>
    have hlt : s.att.val + 1 < 61 := by
      rcases hp with hp | hp <;> simp only [seqOk, hp] at h <;> omega
    exact ⟨_, dif_pos hlt⟩
  · exact ⟨_, rfl⟩

/-- The sequencer's step in a state of the invariant. -/
theorem step_of_sequencerTurn {s : State} (h : Inv s) (hr : s.run = true) (ht : turnOf s = .orc) :
    ∃ a, attAfterRow s.orcPc s.att = some a ∧ step s = .next (sequence s.orcPc a (rowDone s)) := by
  obtain ⟨-, -, hseq⟩ := h.runMode hr
  obtain ⟨hidle, hhalt⟩ := seqOk_active hseq
  obtain ⟨a, ha⟩ := attAfterRow_of_seqOk hseq
  exact ⟨a, ha, step_of_row hr ht hidle hhalt ha⟩

/-- A state of the invariant has a next state, whatever the turn. -/
theorem inv_progress {s : State} (h : Inv s) : ∃ t, step s = .next t := by
  cases ht : turnOf s with
  | reset run => exact ⟨_, by rw [step_eq_takeTurn, ht]; rfl⟩
  | rot => exact ⟨_, step_of_rotTurn ht⟩
  | orc =>
    cases hr : s.run with
    | true =>
      obtain ⟨a, -, hst⟩ := step_of_sequencerTurn h hr ht
      exact ⟨_, hst⟩
    | false =>
      obtain ⟨t, hst⟩ := issue_next .host (afterTurn s).host.drawCommand.1
        { s with host := (afterTurn s).host.drawCommand.2 }
      exact ⟨t, (step_of_hostTurn hr ht rfl).trans hst⟩

/-! #### Eventually -/

/-- Some number of steps from `s` leads to a state of the invariant with `P`. -/
def Eventually (P : State → Prop) (s : State) : Prop := ∃ n t, core.run n s = .next t ∧ Inv t ∧ P t

/-- What holds now holds eventually. -/
theorem Eventually.now {P : State → Prop} {s : State} (h : Inv s) (hP : P s) : Eventually P s :=
  ⟨0, s, rfl, h, hP⟩

/-- What holds eventually from the next state holds eventually. -/
theorem Eventually.of_step {P : State → Prop} {s t : State} (hst : step s = .next t) (ht : Eventually P t) :
    Eventually P s := by
  obtain ⟨n, u, hrun, hu⟩ := ht
  exact ⟨n + 1, u, (run_of_step hst n).trans hrun, hu⟩

/-- What is eventually reached from a state that is eventually reached is eventually reached. -/
theorem Eventually.bind {P Q : State → Prop} {s : State} (h : Eventually P s)
    (hPQ : ∀ t, Inv t → P t → Eventually Q t) : Eventually Q s := by
  obtain ⟨m, t, hm, ht, hPt⟩ := h
  obtain ⟨n, u, hn, hu⟩ := hPQ t ht hPt
  exact ⟨m + n, u, (run_add hm n).trans hn, hu⟩

/-! #### ROT's next turn -/

/-- `Q` is kept by every step that is not ROT's, unless the state has `P` already; ROT's turn gives `P`. -/
structure UntilRot (Q P : State → Prop) : Prop where
  atRot : ∀ {s}, Inv s → Q s → turnOf s = .rot → P s
  keep : ∀ {s t}, Inv s → Q s → turnOf s ≠ .rot → step s = .next t → P s ∨ Q t

/-- One turn on the way to ROT's: either `P` holds, or a state with `Q` follows, with the rest of the turns to come. -/
theorem UntilRot.next {P Q : State → Prop} (u : UntilRot Q P) {s : State} (h : Inv s) (hQ : Q s) :
    P s ∨ (turnOf s ≠ .rot ∧ ∃ t, step s = .next t ∧ Inv t ∧ Q t ∧ t.host.turns = (afterTurn s).host.turns) := by
  by_cases ht : turnOf s = .rot
  · exact .inl (u.atRot h hQ ht)
  · obtain ⟨t, hst⟩ := inv_progress h
    exact (u.keep h hQ ht hst).imp_right fun hQt => ⟨ht, t, hst, inv_step h hst, hQt, step_turns hst⟩

/-- A turn of ROT in the queue comes. -/
theorem UntilRot.of_mem {P Q : State → Prop} (u : UntilRot Q P) {s : State} {l : List Turn}
    (hl : s.host.turns = l) (hmem : .rot ∈ l) (h : Inv s) (hQ : Q s) : Eventually P s := by
  induction l generalizing s with
  | nil => cases hmem
  | cons x l ih =>
    obtain ⟨hx, hrest⟩ := turn_of_queue hl
    rcases u.next h hQ with hP | ⟨hne, t, hst, ht, hQt, hturns⟩
    · exact .now h hP
    · rcases List.mem_cons.1 hmem with rfl | hmem
      · exact absurd hx hne
      · exact .of_step hst (ih (hturns.trans hrest) hmem ht hQt)

/-- R8, R326: a turn of ROT comes, for a queue that runs empty is filled with one. -/
theorem UntilRot.eventually {P Q : State → Prop} (u : UntilRot Q P) {s : State} (h : Inv s) (hQ : Q s) :
    Eventually P s := by
  generalize hl : s.host.turns = l
  induction l generalizing s with
  | nil =>
    rcases u.next h hQ with hP | ⟨hne, t, hst, ht, hQt, hturns⟩
    · exact .now h hP
    · have hmem : .rot ∈ (afterTurn s).host.turns := (drawTurn_rot (sequencerReady s) hl).resolve_left hne
      exact .of_step hst (u.of_mem hturns hmem ht hQt)
  | cons x l ih =>
    obtain ⟨-, hrest⟩ := turn_of_queue hl
    rcases u.next h hQ with hP | ⟨-, t, hst, ht, hQt, hturns⟩
    · exact .now h hP
    · exact .of_step hst (ih ht hQt (hturns.trans hrest))

/-- The next turn is a reset. -/
def resetNext (s : State) : Prop := ∃ run, turnOf s = .reset run

/-- ROT's turn comes. -/
theorem eventually_rotTurn {s : State} (h : Inv s) : Eventually (fun t => turnOf t = .rot) s :=
  UntilRot.eventually (Q := fun _ => True) ⟨fun _ _ ht => ht, fun _ _ _ _ => .inr trivial⟩ h trivial

/-- Outside a reset and ROT's own turn no step from a state of the invariant writes `ROT_IDX` (R70). -/
theorem step_rotIdx {s t : State} (h : Inv s) (hne : turnOf s ≠ .rot) (hst : step s = .next t) :
    resetNext s ∨ t.rotIdx = s.rotIdx := by
  rcases step_operations hst with ⟨run, ht, -⟩ | ⟨-, ht | ⟨-, hr, hp⟩⟩ | ⟨-, -, -, -, a, -, e⟩ |
    ⟨-, -, host, i, hi, e⟩ | ⟨-, -, host, w, e⟩
  · exact .inl ⟨run, ht⟩
  · exact absurd ht hne
  · obtain ⟨-, -, hseq⟩ := h.runMode hr
    obtain ⟨hidle, hhalt⟩ := seqOk_active hseq
    exact absurd hp (by simp [hidle, hhalt])
  · rw [e]
    exact .inr ((completed_writesOnly _ _).rotIdx (rowInstr_ne_rotStep s))
  · rw [e]
    exact .inr ((completed_writesOnly _ _).rotIdx hi)
  · rw [e]
    exact .inr rfl

/-- ROT's turn comes with `ROT_IDX` as it is now, unless a reset comes first. -/
theorem eventually_rotTurn_at {s : State} (h : Inv s) :
    Eventually (fun t => resetNext t ∨ (turnOf t = .rot ∧ t.rotIdx = s.rotIdx)) s :=
  UntilRot.eventually (Q := fun t => t.rotIdx = s.rotIdx)
    ⟨fun _ hk ht => .inr ⟨ht, hk⟩, fun ht hk hne hst =>
      (step_rotIdx ht hne hst).imp .inl fun hkeep => hkeep.trans hk⟩ h rfl

/-- The next step hands slot `k` over as it stands, and changes no slot (R215). -/
def handsOver (k : Fin 2) (t : State) : Prop :=
  ∃ u, step t = .next u ∧ u.slots = t.slots ∧
    u.ev = t.ev ++ [.advertise k (t.slot k).bytes, .delay .rot 100]

/-- On its turn ROT hands over the slot that `ROT_IDX` names. -/
theorem handsOver_of_rotTurn {t : State} (ht : turnOf t = .rot) : handsOver t.rotIdx t :=
  ⟨_, step_of_rotTurn ht, rotStep_slots _, rotStep_ev _⟩

/-- The other slot is next after this one. -/
theorem nextRotIdx_of_ne {j k : Fin 2} (h : j ≠ k) : nextRotIdx j = k := by
  revert j k
  decide

/-- Slot `k` is handed over on ROT's next turn or on the one after it, unless a reset comes first. -/
theorem eventually_handsOver {s : State} (k : Fin 2) (h : Inv s) :
    Eventually (fun t => resetNext t ∨ handsOver k t) s := by
  have handOver {t : State} (ht : Inv t) (hk : t.rotIdx = k) : Eventually (fun t => resetNext t ∨ handsOver k t) t :=
    (eventually_rotTurn_at ht).bind fun u hu hP => .now hu <| hP.imp_right fun ⟨hrot, hidx⟩ => by
      rw [← hk, ← hidx]
      exact handsOver_of_rotTurn hrot
  by_cases hk : s.rotIdx = k
  · exact handOver h hk
  · refine (eventually_rotTurn_at h).bind fun t ht hP => ?_
    rcases hP with hreset | ⟨hrot, hidx⟩
    · exact .now ht (.inl hreset)
    · have hst := step_of_rotTurn hrot
      exact .of_step hst (handOver (inv_step ht hst) (nextRotIdx_of_ne (hidx.trans_ne hk)))

/-- Settles O48: the queue holds a turn of ROT when it is filled, and ROT's turns alternate the slots. -/
theorem rotAlwaysStepsAgain : Obligations.RotAlwaysStepsAgain := by
  unfold Obligations.RotAlwaysStepsAgain
  constructor
  · intro s h
    obtain ⟨n, t, hrun, -, ht⟩ := eventually_rotTurn h
    exact ⟨n, t, hrun, ht⟩
  · intro s k h
    obtain ⟨n, t, hrun, -, ht⟩ := eventually_handsOver k h
    exact ⟨n, t, hrun, ht⟩

/-! #### The sequencer's next turn, and the end of its cycle -/

/-- A turn of the sequencer in run mode is next, with `ORC_PC = pc` and `ATT = att`, unless it is a reset. -/
def sequencerNext (pc : OrcPc) (att : Fin 61) (t : State) : Prop :=
  resetNext t ∨ (turnOf t = .orc ∧ t.run = true ∧ t.orcPc = pc ∧ t.att = att)

/-- In run mode a turn of the sequencer comes, or a reset: until then only ROT steps, and a queue that runs empty gives
the sequencer its turn (R8, R326). -/
theorem eventually_sequencerNext {s : State} (h : Inv s) (hr : s.run = true) :
    Eventually (sequencerNext s.orcPc s.att) s := by
  generalize hl : s.host.turns = l
  induction l generalizing s with
  | nil =>
    obtain ⟨-, -, hseq⟩ := h.runMode hr
    obtain ⟨hidle, hhalt⟩ := seqOk_active hseq
    have hready : sequencerReady s = true := (sequencerReady_iff s).2 ⟨hr, hidle, hhalt⟩
    have ht : turnOf s = .orc := by
      rw [turnOf, hready]
      exact drawTurn_ready hl
    exact .now h (.inr ⟨ht, hr, rfl, rfl⟩)
  | cons x l ih =>
    cases ht : turnOf s with
    | orc => exact .now h (.inr ⟨ht, hr, rfl, rfl⟩)
    | reset run => exact .now h (.inl ⟨run, ht⟩)
    | rot =>
      have hst := step_of_rotTurn ht
      have hev := ih (inv_step h hst) hr (turn_of_queue hl).2
      rw [rotStep_orcPc, rotStep_att] at hev
      exact .of_step hst hev

/-- R254 b: a row that does not end the cycle lowers the bound on the steps left of it. -/
theorem sequence_descends {s : State} {a : Fin 61} (h : seqOk s) (hf : s.fatal = false)
    (ha : attAfterRow s.orcPc s.att = some a) :
    (sequence s.orcPc a (rowDone s)).orcPc = .p0 ∨
      cycleStepsLeft (sequence s.orcPc a (rowDone s)).orcPc (sequence s.orcPc a (rowDone s)).att.val <
        cycleStepsLeft s.orcPc s.att.val := by
  have hfat := rowDone_fatal h hf
  have hatt := attAfterRow_val ha
  generalize rowDone s = u at hfat ⊢
  have h60 : Config.maxAttempts = 60 := rfl
  cases hp : s.orcPc
  case idle | halt => simp [seqOk, hp] at h
  case p2 | p5 | p6 =>
    cases hok : u.status == .ok <;> by_cases hlt : a.val < Config.maxAttempts <;>
    · simp [hp, hok, hlt, seqOk, hfat, orcNext, attAtEnd, cycleStepsLeft] at h hatt ⊢
      omega
  case p4 | p8 =>
    simp [hp, seqOk, hfat, orcNext, attAtEnd, cycleStepsLeft] at h hatt ⊢
    omega
  all_goals simp [hfat, orcNext, attAtEnd, cycleStepsLeft]

/-- The next step is one of the sequencer that ends its cycle, unless it is a reset. -/
def cycleEndsNext (t : State) : Prop :=
  resetNext t ∨ (turnOf t = .orc ∧ t.run = true ∧ ∃ u, step t = .next u ∧ u.orcPc = .p0)

/-- R254 b: every cycle ends, by induction on the bound on its steps. -/
theorem eventually_cycleEndsNext {s : State} (h : Inv s) (hr : s.run = true) : Eventually cycleEndsNext s := by
  induction hn : cycleStepsLeft s.orcPc s.att.val using Nat.strong_induction_on generalizing s with
  | _ n ih =>
    refine (eventually_sequencerNext h hr).bind fun t ht hP => ?_
    rcases hP with hreset | ⟨hturn, hrt, hpc, hatt⟩
    · exact .now ht (.inl hreset)
    · obtain ⟨a, ha, hst⟩ := step_of_sequencerTurn ht hrt hturn
      obtain ⟨hfatal, -, hseq⟩ := ht.runMode hrt
      rcases sequence_descends hseq hfatal ha with hend | hless
      · exact .now ht (.inr ⟨hturn, hrt, _, hst, hend⟩)
      · have hrun : (sequence t.orcPc a (rowDone t)).run = true := (completed_writesOnly _ _).run.trans hrt
        rw [← hpc, ← hatt] at hn
        exact .of_step hst (ih _ (hn ▸ hless) (inv_step ht hst) hrun rfl)

/-- Settles O49: the sequencer's turns come, and each of them lowers the bound on the steps left of the cycle. -/
theorem sequencerAlwaysStepsAgain : Obligations.SequencerAlwaysStepsAgain := by
  unfold Obligations.SequencerAlwaysStepsAgain
  constructor
  · intro s h hr
    obtain ⟨n, t, hrun, -, ht⟩ := eventually_sequencerNext h hr
    exact ⟨n, t, hrun, ht.imp_right fun ⟨hturn, hrt, _, _⟩ => ⟨hturn, hrt⟩⟩
  · intro s h hr
    obtain ⟨n, t, hrun, -, ht⟩ := eventually_cycleEndsNext h hr
    exact ⟨n, t, hrun, ht⟩

end Sys2Proof.Machine

/-! ### O42: the rotation alternates the slots -/

namespace Sys2Proof.Machine

/-! #### The two ends of `FPP.CMD` -/

/-- The state in which `FPP.CMD` has the answer to its write (R165). -/
def fppCmdAsked (s : State) : State :=
  (hostWrite (fppCmdFrame s.cmdOp s.cmdArg).toList { s with txBuf := fppCmdFrame s.cmdOp s.cmdArg }).2

/-- `FPP.CMD` completes where the write took all seven bytes. -/
theorem fppCmd_of_sent {s : State} (h : s.host.drawWrite.1 = .count Config.cmdLen) :
    fppCmd s = complete (fppCmdAsked s) :=
  if_pos h

/-- `FPP.CMD` raises `TRANSPORT` on every other answer. -/
theorem fppCmd_of_failed {s : State} (h : s.host.drawWrite.1 ≠ .count Config.cmdLen) :
    fppCmd s = raise (encode .fppCmd) .transport (fppCmdAsked s) :=
  if_neg h

/-! #### The history through an operation -/

/-- No event of `es` hands a slot over. -/
def NoAdvert (es : List Event) : Prop := ∀ k bytes, Event.advertise k bytes ∉ es

/-- From `s` to `t` the history grew, and no slot was handed over in between. -/
def QuietlyExtends (s t : State) : Prop := ∃ es, t.ev = s.ev ++ es ∧ NoAdvert es

/-- A history that is kept was extended quietly. -/
theorem QuietlyExtends.of_ev_eq {s t : State} (h : t.ev = s.ev) : QuietlyExtends s t :=
  ⟨[], by simp [h], fun _ _ => List.not_mem_nil⟩

/-- Events that hand no slot over, behind a quiet extension. -/
theorem QuietlyExtends.append {s u t : State} {es : List Event} (h : QuietlyExtends s u) (he : t.ev = u.ev ++ es)
    (hes : NoAdvert es) : QuietlyExtends s t := by
  obtain ⟨es', hu, hes'⟩ := h
  refine ⟨es' ++ es, by rw [he, hu, List.append_assoc], fun k bytes hmem => ?_⟩
  rcases List.mem_append.1 hmem with hmem | hmem
  · exact hes' k bytes hmem
  · exact hes k bytes hmem

/-- One event that hands no slot over, behind a quiet extension. -/
theorem QuietlyExtends.snoc {s u t : State} {e : Event} (h : QuietlyExtends s u) (ht : t.ev = u.ev ++ [e])
    (he : ∀ k bytes, Event.advertise k bytes ≠ e) : QuietlyExtends s t :=
  h.append ht fun k bytes hmem => he k bytes (List.mem_singleton.1 hmem)

/-- A raise appends one `Report`. -/
theorem QuietlyExtends.raise {s u : State} (h : QuietlyExtends s u) (op : Byte) (st : Status) :
    QuietlyExtends s (raise op st u) :=
  h.snoc (raise_ev op st u) nofun

/-- The events of a transaction's waits hand no slot over. -/
theorem noAdvert_pulses (w : List Nat) (n : Nat) : NoAdvert ([.lineLow 8600, .lineRelease] ++ pulseEvents w n) := by
  simp [NoAdvert, pulseEvents]

/-- `TSD.DECODE` hands no slot over. -/
theorem tsdDecode_quiet (s : State) : QuietlyExtends s (tsdDecode s) := by
  have waits (h : Inputs) (w : List Nat) (n : Nat) :
      QuietlyExtends s (emit ([.lineLow 8600, .lineRelease] ++ pulseEvents w n) { s with host := h }) :=
    ⟨_, rfl, noAdvert_pulses w n⟩
  rcases tsdDecode_cases s with ⟨f, -, -, -, e⟩ | ⟨-, e⟩ <;> rw [e]
  · exact (waits _ _ _).raise _ _
  · rcases tsdFinish_cases _ _ with ⟨a, e⟩ | e <;> rw [e]
    · exact waits _ _ _
    · exact (waits _ _ _).raise _ _

/-- R216: no operation but `ROT.STEP` hands a slot over. -/
theorem completed_quiet {i : Instr} (s : State) (hi : i ≠ .rotStep) : QuietlyExtends s (completed i s) := by
  have kept : QuietlyExtends s s := .of_ev_eq rfl
  cases i with
  | rotStep => exact absurd rfl hi
  | tsdDecode => exact tsdDecode_quiet s
  | nop | raaAdv => exact .of_ev_eq rfl
  | raaPush ch => cases ch <;> exact .of_ev_eq rfl
  | indBand | auxSample | waitRetry | waitCycle => exact kept.snoc rfl nofun
  | fppParse =>
    simp only [completed, fppParse]
    split
    · exact kept.raise _ _
    · exact .of_ev_eq rfl
  | raaAvg ch =>
    simp only [completed, raaAvg]
    split
    · exact kept.raise _ _
    · cases ch <;> exact .of_ev_eq rfl
  | peEncode kind bank =>
    simp only [completed, peEncode]
    split
    · exact .of_ev_eq rfl
    · exact kept.raise _ _
  | fppCmd =>
    have asked : QuietlyExtends s (fppCmdAsked s) := kept.snoc rfl nofun
    simp only [completed]
    by_cases hsent : s.host.drawWrite.1 = .count Config.cmdLen
    · rw [fppCmd_of_sent hsent]
      exact asked
    · rw [fppCmd_of_failed hsent]
      exact asked.raise _ _
  | fppRead =>
    have asked : QuietlyExtends s (hostRead s).2 := kept.snoc rfl nofun
    simp only [completed, fppRead]
    split
    · exact QuietlyExtends.raise (u := { (hostRead s).2 with rxLen := 0 }) asked _ _
    · exact asked

/-! #### The slots of the history -/

/-- The slots of two histories one after the other. -/
theorem advertised_append (es es' : List Event) : advertised (es ++ es') = advertised es ++ advertised es' :=
  List.filterMap_append ..

/-- Events that hand no slot over name none. -/
theorem advertised_of_noAdvert {es : List Event} (h : NoAdvert es) : advertised es = [] :=
  List.filterMap_eq_nil_iff.2 fun e he => by
    cases e with
    | advertise k bytes => exact absurd he (h k bytes)
    | _ => rfl

/-- The slots of the history through a quiet extension. -/
theorem QuietlyExtends.advertised_eq {s t : State} (h : QuietlyExtends s t) : advertised t.ev = advertised s.ev := by
  obtain ⟨es, he, hes⟩ := h
  rw [he, advertised_append, advertised_of_noAdvert hes, List.append_nil]

/-- `ROT.STEP` names the slot of `ROT_IDX` (R215). -/
theorem advertised_rotStep (s : State) : advertised (rotStep s).ev = advertised s.ev ++ [s.rotIdx] := by
  rw [rotStep_ev, advertised_append]
  rfl

/-- R31: the slot after that of `n` is that of `n + 1`. -/
theorem nextRotIdx_slotParity (n : Nat) : nextRotIdx (slotParity n) = slotParity (n + 1) :=
  Fin.ext (by simp [nextRotIdx, slotParity])

/-! #### The rotation through each kind of step -/

/-- The rotation holds where no slot has been handed over and the first is next. -/
theorem rotationOk_afterReset (cfg : Params) (run : Bool) (host : Inputs) :
    rotationOk (State.afterReset cfg run host) :=
  ⟨rfl, rfl⟩

/-- A quiet extension that keeps `ROT_IDX` keeps the rotation. -/
theorem rotationOk_of_quiet {s t : State} (h : rotationOk s) (he : QuietlyExtends s t) (hk : t.rotIdx = s.rotIdx) :
    rotationOk t := by
  simpa only [rotationOk, he.advertised_eq, hk] using h

/-- `ROT.STEP` appends the next slot of the rotation and moves on (R216). -/
theorem rotationOk_rotStep {s : State} (h : rotationOk s) : rotationOk (rotStep s) := by
  obtain ⟨hlist, hidx⟩ := h
  have hlen : (advertised (rotStep s).ev).length = (advertised s.ev).length + 1 := by
    rw [advertised_rotStep, List.length_append, List.length_singleton]
  constructor
  · calc advertised (rotStep s).ev
        = (List.range (advertised s.ev).length).map slotParity ++ [slotParity (advertised s.ev).length] := by
          rw [advertised_rotStep, ← hlist, ← hidx]
      _ = (List.range (advertised (rotStep s).ev).length).map slotParity := by
          rw [hlen, List.range_succ, List.map_append, List.map_singleton]
  · rw [rotStep_rotIdx, hidx, nextRotIdx_slotParity, hlen]

/-- An operation other than `ROT.STEP` keeps the rotation. -/
theorem rotationOk_completed {s : State} {i : Instr} (h : rotationOk s) (hi : i ≠ .rotStep) :
    rotationOk (completed i s) :=
  rotationOk_of_quiet h (completed_quiet s hi) ((completed_writesOnly i s).rotIdx hi)

/-- Every step keeps the rotation. -/
theorem rotationOk_step {s t : State} (h : rotationOk s) (hst : step s = .next t) : rotationOk t := by
  rcases step_operations hst with ⟨run, -, e⟩ | ⟨e, -⟩ | ⟨-, -, -, -, a, -, e⟩ | ⟨-, -, host, i, hi, e⟩ |
    ⟨-, -, host, w, e⟩ <;> subst e
  · exact rotationOk_afterReset _ _ _
  · exact rotationOk_rotStep (s := afterTurn s) h
  · exact rotationOk_completed (s := afterTurn s) h (rowInstr_ne_rotStep s)
  · exact rotationOk_completed (s := { s with host := host }) h hi
  · exact rotationOk_of_quiet h (QuietlyExtends.raise (.of_ev_eq rfl) _ _) rfl

/-- Settles O42: only `ROT.STEP` hands a slot over, and it hands over the next one. -/
theorem rotationAlternatesTheSlots : Obligations.RotationAlternatesTheSlots :=
  ⟨rotationOk_afterReset _ _ _, fun _ _ => rotationOk_step⟩

end Sys2Proof.Machine

/-! ### O27: `FATAL` is sticky -/

namespace Sys2Proof.Machine

/-- What a step other than a reset makes of `FATAL` and `FATAL_CODE`: ROT leaves them, and on the ORC side they follow
the status that the operation ends with (R29, R274). -/
theorem step_fatal {s t : State} (hst : step s = .next t) (hne : ∀ run, turnOf s ≠ .reset run) :
    (t.fatal = s.fatal ∧ t.fatalCode = s.fatalCode) ∨
      (t.fatal = fatalAfter t.status s.fatal ∧ t.fatalCode = fatalCodeAfter t.status s.fatal s.fatalCode) := by
  rcases step_operations hst with ⟨run, ht, -⟩ | ⟨e, -⟩ | ⟨-, -, -, -, a, -, e⟩ | ⟨-, -, host, i, hi, e⟩ |
    ⟨-, -, host, w, e⟩
  · exact absurd ht (hne run)
  · subst e
    exact .inl ⟨rotStep_fatal _, rotStep_fatalCode _⟩
  · have he := completed_endsWith (afterTurn s) (rowInstr_ne_rotStep s)
    subst e
    exact .inr ⟨he.fatal, he.fatalCode⟩
  · have he := completed_endsWith { s with host := host } hi
    subst e
    exact .inr ⟨he.fatal, he.fatalCode⟩
  · subst e
    exact .inr ⟨rfl, rfl⟩

/-- Settles O27: `FATAL` and `FATAL_CODE` are kept or follow the status, and a status writes the code only where `FATAL`
was 0. -/
theorem fatalIsSticky : Obligations.FatalIsSticky := by
  unfold Obligations.FatalIsSticky
  intro s t hst hne
  rcases step_fatal hst hne with ⟨hf, hc⟩ | ⟨hf, hc⟩ <;> rw [hf, hc]
  · exact ⟨fun h => ⟨h, rfl⟩, fun h h' => absurd (h.symm.trans h') nofun, fun _ _ => rfl⟩
  · refine ⟨fun h => ?_, fun h => ?_, fun h => ?_⟩
    · simp [fatalAfter, fatalCodeAfter, h]
    · simp +contextual [fatalAfter, fatalCodeAfter, h]
    · simp +contextual [fatalAfter, fatalCodeAfter, h]

end Sys2Proof.Machine

/-! ### O32: the command port in run mode -/

namespace Sys2Proof.Machine

/-! #### Other words offered, draw by draw -/

/-- The inputs to come with other command words offered: what `withCmds` changes of a state. -/
def Inputs.withCmds (cs : List Byte) (h : Inputs) : Inputs := { h with cmds := cs }

/-- Other words offered, seen in the inputs to come. -/
theorem withCmds_host (cs : List Byte) (s : State) : (withCmds cs s).host = s.host.withCmds cs := rfl

theorem drawPulse_withCmds (cs : List Byte) (h : Inputs) :
    (h.withCmds cs).drawPulse = (h.drawPulse.1, h.drawPulse.2.withCmds cs) := by
  simp only [Inputs.drawPulse, Inputs.withCmds]
  cases h.pulses <;> rfl

theorem drawRead_withCmds (cs : List Byte) (h : Inputs) :
    (h.withCmds cs).drawRead = (h.drawRead.1, h.drawRead.2.withCmds cs) := by
  simp only [Inputs.drawRead, Inputs.withCmds]
  cases h.reads <;> rfl

theorem drawWrite_withCmds (cs : List Byte) (h : Inputs) :
    (h.withCmds cs).drawWrite = (h.drawWrite.1, h.drawWrite.2.withCmds cs) := by
  simp only [Inputs.drawWrite, Inputs.withCmds]
  cases h.writes <;> rfl

theorem drawAux_withCmds (cs : List Byte) (h : Inputs) :
    (h.withCmds cs).drawAux = (h.drawAux.1, h.drawAux.2.withCmds cs) := by
  simp only [Inputs.drawAux, Inputs.withCmds]
  cases h.auxs <;> rfl

theorem drawTurn_withCmds (cs : List Byte) (ready : Bool) (h : Inputs) :
    (h.withCmds cs).drawTurn ready = ((h.drawTurn ready).1, (h.drawTurn ready).2.withCmds cs) := by
  simp only [Inputs.drawTurn, Inputs.withCmds]
  cases h.turns with
  | cons t rest => rfl
  | nil =>
    cases ready with
    | true => rfl
    | false =>
      simp only [Bool.false_eq_true, if_false]
      cases Config.turnsBeforeRot h.draws <;> rfl

/-- The waits of a plan, with other words offered. -/
theorem tsdWaits_withCmds (cs : List Byte) (plan : List (Level × Status)) (h : Inputs) :
    tsdWaits plan (h.withCmds cs) =
      ⟨(tsdWaits plan h).result, (tsdWaits plan h).events, (tsdWaits plan h).inputs.withCmds cs⟩ := by
  induction plan generalizing h with
  | nil => rfl
  | cons p rest ih =>
    simp only [tsdWaits, drawPulse_withCmds, ih]
    split <;> rfl

/-! #### Other words offered, operation by operation -/

/-- The write of `FPP.CMD`, with other words offered. -/
theorem fppCmdAsked_withCmds (cs : List Byte) (s : State) :
    fppCmdAsked (withCmds cs s) = withCmds cs (fppCmdAsked s) := by
  simp only [fppCmdAsked, hostWrite_eq, withCmds_host, drawWrite_withCmds]
  rfl

/-- No operation looks at the words offered (R39, R68). -/
theorem completed_withCmds (cs : List Byte) (i : Instr) (s : State) :
    completed i (withCmds cs s) = withCmds cs (completed i s) := by
  cases i with
  | nop | raaAdv | indBand | rotStep | waitRetry | waitCycle => rfl
  | raaPush ch => cases ch <;> rfl
  | auxSample =>
    simp only [completed, auxSample, hostAux_eq, withCmds_host, drawAux_withCmds]
    rfl
  | tsdDecode =>
    simp only [completed, tsdDecode, hostLineLow_eq, hostLineRelease_eq, emit_host, withCmds_host, tsdWaits_withCmds]
    cases (tsdWaits tsdPlan s.host).result with
    | error phase => rfl
    | ok w =>
      simp only [tsdFinish]
      split <;> rfl
  | fppParse =>
    have hvalid : (withCmds cs s).rxValid = s.rxValid := rfl
    simp only [completed, fppParse, hvalid]
    cases fppParseBuffer s.rxValid <;> rfl
  | fppCmd =>
    have hans : (withCmds cs s).host.drawWrite.1 = s.host.drawWrite.1 := by
      rw [withCmds_host, drawWrite_withCmds]
    simp only [completed]
    by_cases hsent : s.host.drawWrite.1 = .count Config.cmdLen
    · rw [fppCmd_of_sent hsent, fppCmd_of_sent (hans.trans hsent), fppCmdAsked_withCmds]
      rfl
    · rw [fppCmd_of_failed hsent, fppCmd_of_failed (hans ▸ hsent), fppCmdAsked_withCmds]
      rfl
  | fppRead =>
    simp only [completed, fppRead, hostRead_eq, withCmds_host, drawRead_withCmds]
    cases s.host.drawRead.1 <;> rfl
  | raaAvg ch =>
    have hcnt : (withCmds cs s).cnt ch = s.cnt ch := by cases ch <;> rfl
    simp only [completed, raaAvg, hcnt]
    split
    · rfl
    · cases ch <;> rfl
  | peEncode kind bank =>
    simp only [completed, peEncode]
    split
    · cases bank <;> rfl
    · rfl

/-- Issuing a word does not look at the words offered either. -/
theorem issue_withCmds (cs : List Byte) (issuer : Issuer) (w : Byte) (s : State) :
    issue issuer w (withCmds cs s) = mapNext (withCmds cs) (issue issuer w s) := by
  cases hd : decodeFrom issuer w with
  | ok i => simp only [issue_legal hd, exec_eq_completed, completed_withCmds, mapNext]
  | error e =>
    simp only [issue_illegal hd]
    rfl

/-! #### Other words offered, turn by turn -/

/-- Whether the sequencer can step does not depend on the words offered. -/
theorem sequencerReady_withCmds (cs : List Byte) (s : State) : sequencerReady (withCmds cs s) = sequencerReady s := rfl

/-- What comes next does not depend on the words offered. -/
theorem turnOf_withCmds (cs : List Byte) (s : State) : turnOf (withCmds cs s) = turnOf s := by
  simp only [turnOf, sequencerReady_withCmds, withCmds_host, drawTurn_withCmds]

/-- Drawing the turn leaves the words offered. -/
theorem afterTurn_withCmds (cs : List Byte) (s : State) : afterTurn (withCmds cs s) = withCmds cs (afterTurn s) := by
  simp only [afterTurn, sequencerReady_withCmds, withCmds_host, drawTurn_withCmds]
  rfl

/-- A turn of the sequencer does not look at the words offered. -/
theorem orcTurn_withCmds (cs : List Byte) (s : State) :
    orcTurn (withCmds cs s) = mapNext (withCmds cs) (orcTurn s) := by
  have hw : orcWord (withCmds cs s) = orcWord s := rfl
  have ha : attAfterRow (withCmds cs s).orcPc (withCmds cs s).att = attAfterRow s.orcPc s.att := rfl
  simp only [orcTurn, hw, ha]
  cases orcWord s with
  | none => exact issue_withCmds cs .rot 0xB0 s
  | some w =>
    cases attAfterRow s.orcPc s.att with
    | none => rfl
    | some a =>
      simp only [issue_withCmds]
      cases issue .orc w s <;> rfl

/-- In run mode no turn looks at the words offered. -/
theorem takeTurn_withCmds (cs : List Byte) (t : Turn) {s : State} (hr : s.run = true) :
    takeTurn t (withCmds cs s) = mapNext (withCmds cs) (takeTurn t s) := by
  cases t with
  | reset run => rfl
  | rot => exact issue_withCmds cs .rot 0xB0 s
  | orc =>
    have hr' : (withCmds cs s).run = true := hr
    simp only [takeTurn, hr, hr']
    exact orcTurn_withCmds cs s

/-- Settles O32: neither the draw of the turn nor any turn of run mode looks at the words offered. -/
theorem commandPortIsDeadInRunMode : Obligations.CommandPortIsDeadInRunMode := by
  unfold Obligations.CommandPortIsDeadInRunMode
  intro s cs hr
  rw [step_eq_takeTurn, step_eq_takeTurn, turnOf_withCmds, afterTurn_withCmds]
  exact takeTurn_withCmds cs _ hr

end Sys2Proof.Machine

/-! ### O36, O30, O38, O39: writers, reset values, the model's stop -/

namespace Sys2Proof.Machine

/-- Settles O36, from what each operation writes. -/
theorem registersHaveTheirWriters : Obligations.RegistersHaveTheirWriters := by
  unfold Obligations.RegistersHaveTheirWriters
  intro i s t h
  have hw : WritesOnly i s t := exec_next_iff.1 h ▸ completed_writesOnly i s
  exact ⟨hw.sa, hw.sb, hw.sx, hw.ava, hw.avb, hw.avx,
    ⟨hw.cmdOp, hw.cmdArg, hw.run, hw.orcPc, hw.att, hw.cfg⟩, hw.off, hw.rotIdx,
    fun hi => ⟨hw.cntA hi, hw.histA hi⟩, fun hi => ⟨hw.cntB hi, hw.histB hi⟩, fun hi => ⟨hw.cntX hi, hw.histX hi⟩,
    hw.nfail, fun hi => ⟨hw.rxLen hi, hw.rxBuf hi⟩, hw.txBuf, hw.band, hw.slot⟩

/-- The windows after reset hold zeros (R38, R54). -/
theorem reset_windows (k : Fin 10) :
    State.reset.histA[k] = SampleA.zero ∧ State.reset.histB[k] = SampleB.zero ∧ State.reset.histX[k] = 0 := by
  simp [State.reset, State.afterReset]

/-- The slots after reset hold the header and a record of zeros (R50, R54). -/
theorem reset_slots (k : Fin 2) :
    State.reset.slots[k].header = State.reset.cfg.hdr ∧ ∀ j : Fin 25, State.reset.slots[k].record[j] = 0 := by
  have hslot : State.reset.slots[k] = ⟨State.reset.cfg.hdr, zeroRecord⟩ := afterReset_slot _ _ _ k
  rw [hslot]
  exact ⟨rfl, fun j => by simp [zeroRecord]⟩

/-- The transmit buffer after reset holds zeros (R52, R54). -/
theorem reset_txBuf (j : Fin 7) : State.reset.txBuf[j] = 0 := by
  simp [State.reset, State.afterReset]

/-- Settles O30: the registers by definition, the memories element by element. -/
theorem resetStateHoldsTheListedValues : Obligations.ResetStateHoldsTheListedValues :=
  ⟨⟨rfl, rfl, rfl, rfl, rfl, rfl⟩, ⟨rfl, rfl⟩, rfl, ⟨rfl, rfl, rfl⟩,
    ⟨rfl, rfl, rfl, rfl, rfl, rfl, rfl, rfl, rfl⟩, reset_windows, reset_slots, fun _ => rfl, reset_txBuf, rfl⟩

/-- In `P2` and `P5` no attempt is counted beyond the sixtieth (R33, R245). -/
theorem attAfterRow_sixty {pc : OrcPc} (hp : pc = .p2 ∨ pc = .p5) : attAfterRow pc 60 = none := by
  rcases hp with rfl | rfl <;> rfl

/-- Where `ATT` has no next value, the sequencer's turn is the model's stop. -/
theorem step_of_noAttempt {s : State} (hr : s.run = true) (ht : turnOf s = .orc) (hw : orcWord s ≠ none)
    (ha : attAfterRow s.orcPc s.att = none) : step s = .fault .sixtyFirstAttempt := by
  obtain ⟨w, hw⟩ := Option.ne_none_iff_exists'.1 hw
  have hw' : orcWord (afterTurn s) = some w := hw
  rw [step_eq_takeTurn, ht]
  simp only [takeTurn, afterTurn_run, hr, orcTurn, hw', afterTurn_orcPc, afterTurn_att, ha]

/-- Settles O38: both rows count an attempt, and 61 is no value of `ATT`. -/
theorem sixtyFirstAttemptStops : Obligations.SixtyFirstAttemptStops := by
  unfold Obligations.SixtyFirstAttemptStops
  intro s hr ht hatt hp
  have hrow : orcWord s ≠ none := fun hw => by
    rcases (orcWord_none_iff s).1 hw with h | h <;> simp [h] at hp
  exact step_of_noAttempt hr ht hrow (hatt ▸ attAfterRow_sixty hp)

/-- Settles O39: `RXCAP` of the machine is 32 and more (R6), and the rest holds after every reset. -/
theorem invariantHoldsAtReset : Obligations.InvariantHoldsAtReset :=
  ⟨inv_afterReset _ _ (Nat.le_add_right 32 _), fun _ run host hcap => inv_afterReset run host hcap⟩

end Sys2Proof.Machine

/-! ### O43, O47: slots and broadcasts carry whole records -/

namespace Sys2Proof.Machine

/-! #### The operation that the ORC side executes next -/

/-- The next step is a turn of the ORC side, and the word that it puts forward stands for the operation `i`. -/
def executesNow (s : State) (i : Instr) : Prop := turnOf s = .orc ∧ ∃ w, nextWord s = some w ∧ decode w = .ok i

/-- Packing a record is the case `PE.ENCODE` of executing an operation (R204). -/
theorem encodesNow_iff {s : State} {k : Fin 2} {bank : Bank} :
    encodesNow s k bank ↔ executesNow s (.peEncode k.val bank) :=
  Iff.rfl

/-- A step executes one operation at most (R90). -/
theorem executesNow_unique {s : State} {i j : Instr} (hi : executesNow s i) (hj : executesNow s j) : i = j := by
  obtain ⟨-, w, hw, hd⟩ := hi
  obtain ⟨-, w', hw', hd'⟩ := hj
  have hww : w = w' := Option.some.inj (hw.symm.trans hw')
  subst hww
  exact Except.ok.inj (hd.symm.trans hd')

/-- Without a word of the ORC side no operation is executed. -/
theorem not_executesNow_of_none {s : State} (h : nextWord s = none) (i : Instr) : ¬ executesNow s i := by
  rintro ⟨-, w, hw, -⟩
  rw [h] at hw
  cases hw

/-- An illegal word of the host stands for no operation, or for `ROT.STEP`, which the host may not issue (R93). -/
theorem eq_rotStep_of_illegal {w : Byte} {i : Instr} {issuer : Issuer} {e : DecodeError}
    (h : decodeFrom issuer w = .error e) (hd : decode w = .ok i) : i = .rotStep := by
  by_contra hi
  rw [decodeFrom_of_decode issuer hd hi] at h
  cases h

/-- What a step is to the slots and the history, with the operation named: a reset; a ROT step, in which the ORC side
executes nothing; the operation `i` of the ORC side; an illegal word. -/
theorem step_executes {s t : State} (h : step s = .next t) :
    (∃ run, turnOf s = .reset run ∧ t = takeReset run (afterTurn s)) ∨
    (t = rotStep (afterTurn s) ∧ ∀ i, ¬ executesNow s i) ∨
    (∃ i host, executesNow s i ∧ i ≠ .rotStep ∧
      (t = completed i { s with host := host } ∨
        ∃ a, t = sequence s.orcPc a (completed i { s with host := host }))) ∨
    (∃ w host, (∀ i, executesNow s i → i = .rotStep) ∧ t = raise w .illegalOp { s with host := host }) := by
  rcases step_cases h with ⟨run, ht, e⟩ | ⟨e, ht | ⟨-, hr, hw⟩⟩ | ⟨ht, hr, w, a, u, hw, -, hu, e⟩ | ⟨ht, hr, hu⟩
  · exact .inl ⟨run, ht, e⟩
  · refine .inr (.inl ⟨e, fun i hi => ?_⟩)
    obtain ⟨ht', -⟩ := hi
    cases ht.symm.trans ht'
  · have hnone : nextWord s = none := by rw [nextWord, hr, hw]
    exact .inr (.inl ⟨e, not_executesNow_of_none hnone⟩)
  · have hnext : nextWord s = some w := by rw [nextWord, hr, hw]
    have hd := orcWord_decodes hw
    rw [issue_legal hd, exec_next_iff] at hu
    subst hu
    exact .inr (.inr (.inl ⟨_, _, ⟨ht, w, hnext, decode_of_decodeFrom hd⟩, rowInstr_ne_rotStep s, .inr ⟨a, e⟩⟩))
  · have hnext : nextWord s = some (afterTurn s).host.drawCommand.1 := by rw [nextWord, hr]
    cases hd : decodeFrom .host (afterTurn s).host.drawCommand.1 with
    | ok i =>
      rw [issue_legal hd, exec_next_iff] at hu
      exact .inr (.inr (.inl
        ⟨i, _, ⟨ht, _, hnext, decode_of_decodeFrom hd⟩, decodeFrom_ne_rotStep hd nofun, .inl hu.symm⟩))
    | error e =>
      rw [issue_illegal hd] at hu
      injection hu with hu
      refine .inr (.inr (.inr ⟨_, _, fun i hi => ?_, hu.symm⟩))
      obtain ⟨-, w, hw, hdw⟩ := hi
      rw [hnext] at hw
      cases hw
      exact eq_rotStep_of_illegal hd hdw

/-! #### Slots, history and parameters through a step -/

/-- `PE.ENCODE k` puts the packed record into slot `k` and keeps the header (R204, R206). -/
theorem peEncode_slot (s : State) (k : Fin 2) (bank : Bank) :
    (peEncode k.val bank s).slot k = ⟨(s.slot k).header, packedNow s k bank⟩ := by
  rw [peEncode, dif_pos (show k.val < Config.numSlots from k.isLt), complete_slot, State.writeRecord_slot, if_pos rfl]
  rfl

/-- What is packed does not depend on the inputs to come. -/
theorem packedNow_withHost (s : State) (host : Inputs) (k : Fin 2) (bank : Bank) :
    packedNow { s with host := host } k bank = packedNow s k bank := by
  cases bank <;> rfl

/-- A step that is no reset keeps each slot that it packs no record into (R66). -/
theorem step_slot_kept {s t : State} {k : Fin 2} (hst : step s = .next t) (hne : ∀ run, turnOf s ≠ .reset run)
    (hk : ∀ bank, ¬ encodesNow s k bank) : t.slot k = s.slot k := by
  rcases step_executes hst with ⟨run, ht, -⟩ | ⟨e, -⟩ | ⟨i, host, hi, -, e⟩ | ⟨w, host, -, e⟩
  · exact absurd ht (hne run)
  · rw [e, rotStep_slot, afterTurn_slot]
  · have hslot : (completed i { s with host := host }).slot k = s.slot k :=
      (completed_writesOnly i _).slot k fun bank hb => hk bank (encodesNow_iff.2 (hb ▸ hi))
    rcases e with e | ⟨a, e⟩ <;> subst e <;> exact hslot
  · rw [e]
    rfl

/-- A step that packs a record puts it whole into the slot, from the registers before the step (R66, R204). -/
theorem step_slot_packed {s t : State} {k : Fin 2} {bank : Bank} (hst : step s = .next t)
    (hk : encodesNow s k bank) : t.slot k = ⟨(s.slot k).header, packedNow s k bank⟩ := by
  rcases step_executes hst with ⟨run, ht, -⟩ | ⟨-, hno⟩ | ⟨i, host, hi, -, e⟩ | ⟨w, host, hrot, -⟩
  · obtain ⟨ht', -⟩ := hk
    cases ht.symm.trans ht'
  · exact absurd hk (hno _)
  · obtain rfl := executesNow_unique hi hk
    have hslot : (completed (.peEncode k.val bank) { s with host := host }).slot k =
        ⟨(s.slot k).header, packedNow s k bank⟩ := by
      rw [← packedNow_withHost s host]
      exact peEncode_slot _ k bank
    rcases e with e | ⟨a, e⟩ <;> subst e <;> exact hslot
  · cases hrot _ hk

/-- A step that is no reset and no ROT step hands no slot over (R216). -/
theorem step_quiet_or_rot {s t : State} (hst : step s = .next t) (hne : ∀ run, turnOf s ≠ .reset run) :
    t = rotStep (afterTurn s) ∨ QuietlyExtends s t := by
  rcases step_executes hst with ⟨run, ht, -⟩ | ⟨e, -⟩ | ⟨i, host, -, hi, e⟩ | ⟨w, host, -, e⟩
  · exact absurd ht (hne run)
  · exact .inl e
  · have hq : QuietlyExtends s (completed i { s with host := host }) := completed_quiet { s with host := host } hi
    rcases e with e | ⟨a, e⟩ <;> subst e <;> exact .inr hq
  · subst e
    exact .inr (.raise (u := { s with host := host }) (.of_ev_eq rfl) _ _)

/-- The one `Advertise` event that a step which is no reset can append carries the bytes that slot `ROT_IDX` had before
the step (R215, R217). -/
theorem step_adverts {s t : State} (hst : step s = .next t) (hne : ∀ run, turnOf s ≠ .reset run) :
    ∃ es, t.ev = s.ev ++ es ∧
      ∀ k bytes, .advertise k bytes ∈ es → k = s.rotIdx ∧ bytes = (s.slot s.rotIdx).bytes := by
  rcases step_quiet_or_rot hst hne with e | ⟨es, he, hes⟩
  · subst e
    exact ⟨_, rotStep_ev _, fun k bytes hmem => by simpa using hmem⟩
  · exact ⟨es, he, fun k bytes hmem => absurd hmem (hes k bytes)⟩

/-- A reset leaves an empty history and the reset record in both slots (R300). -/
theorem step_of_reset {s t : State} {run : Bool} (hst : step s = .next t) (ht : turnOf s = .reset run) :
    t.ev = [] ∧ ∀ k, t.slot k = ⟨s.cfg.hdr, zeroRecord⟩ := by
  rw [step_eq_takeTurn, ht] at hst
  injection hst with e
  subst e
  exact ⟨rfl, fun k => afterReset_slot _ _ _ k⟩

/-- No step changes the open parameters (R302). -/
theorem step_cfg {s t : State} (hst : step s = .next t) : t.cfg = s.cfg := by
  rcases step_executes hst with ⟨run, -, e⟩ | ⟨e, -⟩ | ⟨i, host, -, -, e⟩ | ⟨w, host, -, e⟩
  · subst e
    rfl
  · rw [e, rotStep_cfg, afterTurn_cfg]
  · have hcfg : (completed i { s with host := host }).cfg = s.cfg := (completed_writesOnly i _).cfg
    rcases e with e | ⟨a, e⟩ <;> subst e <;> exact hcfg
  · subst e
    rfl

/-! #### Slots and broadcasts whose records are of one kind -/

/-- Each slot, and each slot handed over so far, holds the header and a record that `R` allows the slot. -/
structure Carries (R : Fin 2 → Vector Byte 25 → Prop) (s : State) : Prop where
  slots : ∀ k, ∃ rec, s.slot k = ⟨s.cfg.hdr, rec⟩ ∧ R k rec
  adverts : ∀ k bytes, .advertise k bytes ∈ s.ev → ∃ rec, bytes = s.cfg.hdr.toList ++ rec.toList ∧ R k rec

/-- The invariant of the slots and broadcasts is the case of the whole records. -/
theorem broadcastOk_iff_carries (s : State) : BroadcastOk s ↔ Carries (wholeRecord s.cfg) s := by
  constructor
  · rintro ⟨hhdr, hrec, hadv⟩
    exact ⟨fun k => ⟨_, by rw [← hhdr k], hrec k⟩, hadv⟩
  · rintro ⟨hslot, hadv⟩
    refine ⟨fun k => ?_, fun k => ?_, hadv⟩ <;> obtain ⟨rec, hk, hR⟩ := hslot k <;> rw [hk]
    exact hR

/-- No slot handed over yet, and the reset record in both. -/
theorem Carries.of_fresh {R : Fin 2 → Vector Byte 25 → Prop} {s : State} (hev : s.ev = [])
    (hslot : ∀ k, s.slot k = ⟨s.cfg.hdr, zeroRecord⟩) (hzero : ∀ k, R k zeroRecord) : Carries R s where
  slots k := ⟨_, hslot k, hzero k⟩
  adverts k bytes hmem := by
    rw [hev] at hmem
    cases hmem

/-- A step keeps the kind of the records, if the kind has the reset record, the records so far, and the record that this
very step packs. -/
theorem Carries.after_step {R R' : Fin 2 → Vector Byte 25 → Prop} {s t : State} (h : Carries R s)
    (hst : step s = .next t) (hzero : ∀ k, R' k zeroRecord) (hmono : ∀ k rec, R k rec → R' k rec)
    (hpack : ∀ k bank, encodesNow s k bank → R' k (packedNow s k bank)) : Carries R' t := by
  have hcfg := step_cfg hst
  by_cases hreset : ∃ run, turnOf s = .reset run
  · obtain ⟨run, ht⟩ := hreset
    obtain ⟨hev, hslot⟩ := step_of_reset hst ht
    exact .of_fresh hev (hcfg ▸ hslot) hzero
  · have hne : ∀ run, turnOf s ≠ .reset run := not_exists.1 hreset
    constructor
    case slots =>
      intro k
      rw [hcfg]
      obtain ⟨rec, hk, hR⟩ := h.slots k
      by_cases henc : ∃ bank, encodesNow s k bank
      · obtain ⟨bank, henc⟩ := henc
        exact ⟨_, by rw [step_slot_packed hst henc, hk], hpack k bank henc⟩
      · exact ⟨rec, (step_slot_kept hst hne (not_exists.1 henc)).trans hk, hmono k rec hR⟩
    case adverts =>
      intro k bytes hmem
      obtain ⟨es, he, hes⟩ := step_adverts hst hne
      rw [he, List.mem_append] at hmem
      rw [hcfg]
      rcases hmem with hold | hnew
      · obtain ⟨rec, hbytes, hR⟩ := h.adverts k bytes hold
        exact ⟨rec, hbytes, hmono k rec hR⟩
      · obtain ⟨rfl, rfl⟩ := hes k bytes hnew
        obtain ⟨rec, hk, hR⟩ := h.slots s.rotIdx
        exact ⟨rec, by rw [hk]; rfl, hmono _ rec hR⟩

/-- Every step keeps the invariant of the slots and broadcasts. -/
theorem broadcastOk_step {s t : State} (h : BroadcastOk s) (hst : step s = .next t) : BroadcastOk t := by
  rw [broadcastOk_iff_carries] at h ⊢
  rw [step_cfg hst]
  exact h.after_step hst (fun _ => .inl rfl) (fun _ _ hR => hR) fun _ _ _ => .inr ⟨_, _, _, rfl⟩

/-- Settles O43, from what a step makes of each slot and of the history. -/
theorem broadcastsCarryWholeRecords : Obligations.BroadcastsCarryWholeRecords := by
  unfold Obligations.BroadcastsCarryWholeRecords
  refine ⟨?slots, fun s t => step_adverts, fun s t run => step_of_reset, ?atReset, fun s t => broadcastOk_step⟩
  case slots =>
    exact fun s t k hst hne => ⟨step_slot_kept hst hne, fun bank => step_slot_packed hst⟩
  case atReset =>
    rw [broadcastOk_iff_carries]
    exact .of_fresh rfl (fun k => afterReset_slot _ _ _ k) fun _ => .inl rfl

/-! #### The records of a run -/

/-- The first of `n + 1` steps. -/
theorem run_succ_first {s t : State} {n : Nat} (h : core.run (n + 1) s = .next t) :
    ∃ u, step s = .next u ∧ core.run n u = .next t := by
  simp only [Host.Core.run] at h
  cases hs : core.step s with
  | next u =>
    rw [hs] at h
    exact ⟨u, hs, h⟩
  | fault r => rw [hs] at h; cases h
  | refused r => rw [hs] at h; cases h

/-- The last of `n + 1` steps. -/
theorem run_succ_last {s t : State} {n : Nat} (h : core.run (n + 1) s = .next t) :
    ∃ u, core.run n s = .next u ∧ step u = .next t := by
  induction n generalizing s with
  | zero =>
    obtain ⟨u, hs, hu⟩ := run_succ_first h
    exact ⟨s, rfl, hs.trans hu⟩
  | succ n ih =>
    obtain ⟨v, hs, hv⟩ := run_succ_first h
    obtain ⟨u, hu, hst⟩ := ih hv
    exact ⟨u, (run_of_step hs n).trans hu, hst⟩

/-- The record of zeros, or one that a `PE.ENCODE k` within the first `n` steps from `s` packed (R66 b). -/
def packedWithin (s : State) (n : Nat) (k : Fin 2) (rec : Vector Byte 25) : Prop :=
  rec = zeroRecord ∨
    ∃ m u bank, m < n ∧ core.run m s = .next u ∧ encodesNow u k bank ∧ rec = packedNow u k bank

/-- A longer run has the records of a shorter one. -/
theorem packedWithin_succ {s : State} {n : Nat} {k : Fin 2} {rec : Vector Byte 25} (h : packedWithin s n k rec) :
    packedWithin s (n + 1) k rec := by
  rcases h with h | ⟨m, u, bank, hm, hrest⟩
  · exact .inl h
  · exact .inr ⟨m, u, bank, Nat.lt_succ_of_lt hm, hrest⟩

/-- After a run from a fresh state, every record is that of one `PE.ENCODE` of the run, or the reset record. -/
theorem run_carries {s t : State} {n : Nat} (hev : s.ev = []) (hslot : ∀ k, s.slot k = ⟨s.cfg.hdr, zeroRecord⟩)
    (h : core.run n s = .next t) : t.cfg = s.cfg ∧ Carries (packedWithin s n) t := by
  induction n generalizing t with
  | zero =>
    injection h with h
    subst h
    exact ⟨rfl, .of_fresh hev hslot fun _ => .inl rfl⟩
  | succ n ih =>
    obtain ⟨u, hu, hst⟩ := run_succ_last h
    obtain ⟨hcfg, hcarries⟩ := ih hu
    exact ⟨(step_cfg hst).trans hcfg, hcarries.after_step hst (fun _ => .inl rfl) (fun _ _ => packedWithin_succ)
      fun k bank henc => .inr ⟨n, u, bank, Nat.lt_succ_self n, hu, henc, rfl⟩⟩

/-- Settles O47, by induction on the number of steps. -/
theorem advertisedRecordsAreOfOneEncode : Obligations.AdvertisedRecordsAreOfOneEncode := by
  unfold Obligations.AdvertisedRecordsAreOfOneEncode
  intro s t n hev hslot hrun k bytes hmem
  obtain ⟨hcfg, hcarries⟩ := run_carries hev hslot hrun
  obtain ⟨rec, hbytes, hrec⟩ := hcarries.adverts k bytes hmem
  rw [hcfg] at hbytes
  rcases hrec with rfl | ⟨m, u, bank, hm, hu, henc, rfl⟩
  · exact .inl hbytes
  · exact .inr ⟨m, u, bank, hm, hu, henc, hbytes⟩

end Sys2Proof.Machine

/-! ### O35: what ROT and the ORC side share -/

namespace Sys2Proof.Machine

/-- `s` with another slot next in the rotation. -/
def withRotIdx (k : Fin 2) (s : State) : State := { s with rotIdx := k }

@[simp] theorem withRotIdx_host (k : Fin 2) (s : State) : (withRotIdx k s).host = s.host := rfl
@[simp] theorem withRotIdx_rxValid (k : Fin 2) (s : State) : (withRotIdx k s).rxValid = s.rxValid := rfl
@[simp] theorem withRotIdx_cnt (k : Fin 2) (s : State) (ch : Channel) : (withRotIdx k s).cnt ch = s.cnt ch := by
  cases ch <;> rfl

/-- R70: no operation but `ROT.STEP` looks at `ROT_IDX`, or writes it. -/
theorem completed_withRotIdx (k : Fin 2) {i : Instr} (s : State) (hi : i ≠ .rotStep) :
    completed i (withRotIdx k s) = withRotIdx k (completed i s) := by
  cases i with
  | rotStep => exact absurd rfl hi
  | nop | raaAdv | indBand | auxSample | waitRetry | waitCycle => rfl
  | raaPush ch => cases ch <;> rfl
  | tsdDecode =>
    simp only [completed, tsdDecode, hostLineLow_eq, hostLineRelease_eq, emit_host, withRotIdx_host]
    cases (tsdWaits tsdPlan s.host).result with
    | error phase => rfl
    | ok w =>
      simp only [tsdFinish]
      split <;> rfl
  | fppParse =>
    simp only [completed, fppParse, withRotIdx_rxValid]
    cases fppParseBuffer s.rxValid <;> rfl
  | fppCmd =>
    simp only [completed]
    by_cases hsent : s.host.drawWrite.1 = .count Config.cmdLen
    · rw [fppCmd_of_sent hsent, fppCmd_of_sent (s := withRotIdx k s) hsent]
      rfl
    · rw [fppCmd_of_failed hsent, fppCmd_of_failed (s := withRotIdx k s) hsent]
      rfl
  | fppRead =>
    simp only [completed, fppRead, hostRead_eq, withRotIdx_host]
    cases s.host.drawRead.1 <;> rfl
  | raaAvg ch =>
    simp only [completed, raaAvg, withRotIdx_cnt]
    split
    · rfl
    · cases ch <;> rfl
  | peEncode kind bank =>
    simp only [completed, peEncode]
    split
    · cases bank <;> rfl
    · rfl

/-- ROT's turn appends what `ROT_IDX` and the slots determine (R70, R215). -/
theorem rotStep_ev_eq {s s' : State} (hidx : s.rotIdx = s'.rotIdx) (hslots : s.slots = s'.slots) :
    ∃ es, (rotStep s).ev = s.ev ++ es ∧ (rotStep s').ev = s'.ev ++ es := by
  refine ⟨_, rotStep_ev s, ?_⟩
  rw [rotStep_ev, hidx, State.slot, State.slot, hslots]

/-- Settles O35: the ROT step by definition, the operations one by one. -/
theorem orcAndRotShareOnlyTheRecords : Obligations.OrcAndRotShareOnlyTheRecords := by
  unfold Obligations.OrcAndRotShareOnlyTheRecords
  refine ⟨?rotWrites, ?rotReads, ?orcSide, ?headers⟩
  case rotWrites =>
    intro s t ht hst
    rw [step_of_rotTurn ht] at hst
    injection hst with hst
    subst hst
    rfl
  case rotReads =>
    intro s s' t t' ht ht' hidx hslots hst hst'
    rw [step_of_rotTurn ht] at hst
    rw [step_of_rotTurn ht'] at hst'
    injection hst with hst
    injection hst' with hst'
    subst hst hst'
    exact ⟨congrArg nextRotIdx hidx, rotStep_ev_eq (s := afterTurn s) (s' := afterTurn s') hidx hslots⟩
  case orcSide =>
    intro i s k hi
    rw [exec_eq_completed, exec_eq_completed, mapNext]
    exact congrArg _ (completed_withRotIdx k s hi)
  case headers =>
    intro i s t k h
    have hw : WritesOnly i s t := exec_next_iff.1 h ▸ completed_writesOnly i s
    exact hw.header k

end Sys2Proof.Machine

/-! ### O1, O2, O4: the decoder and the encoder undo each other -/

namespace Sys2Proof.Machine

/-! #### The fields of a word -/

/-- R90: `op` is the word without its low four bits. -/
theorem opField_toNat (w : Byte) : (opField w).toNat = w.toNat / 16 := by
  have hlt := w.isLt
  simp only [opField, BitVec.extractLsb'_toNat, Nat.shiftRight_eq_div_pow]
  omega

/-- R90: `arg` is the low four bits. -/
theorem argField_toNat (w : Byte) : (argField w).toNat = w.toNat % 16 := by
  simp [argField]

/-- R90: a word is its operation code followed by its argument. -/
theorem opField_append_argField (w : Byte) : opField w ++ argField w = w := by
  apply BitVec.eq_of_toNat_eq
  rw [BitVec.toNat_append, opField_toNat, argField_toNat, Nat.shiftLeft_eq, Nat.mul_comm,
    ← Nat.two_pow_add_eq_or_of_lt (Nat.mod_lt _ (by decide))]
  exact Nat.div_add_mod w.toNat 16

/-- The two fields together fix the word. -/
theorem append_eq_of_fields {w : Byte} {op arg : BitVec 4} (hop : (opField w).toNat = op.toNat)
    (harg : argField w = arg) : op ++ arg = w := by
  rw [← BitVec.eq_of_toNat_eq hop, ← harg, opField_append_argField]

/-! #### The four formats -/

/-- Format Z (R91): no argument, or a bit that must be 0. -/
theorem decodeZ_cases (i : Instr) (arg : BitVec 4) :
    (arg = 0 ∧ decodeZ i arg = .ok i) ∨ decodeZ i arg = .error .mustBeZero := by
  by_cases h : arg = 0
  · exact .inl ⟨h, if_pos h⟩
  · exact .inr (if_neg h)

/-- Two bits are the code of a channel, or 3 (R94). -/
theorem channelOfCode_cases (c : BitVec 2) :
    (∃ ch, c = channelCode ch ∧ channelOfCode c = some ch) ∨ (c = 3 ∧ channelOfCode c = none) := by
  match c with
  | 0 => exact .inl ⟨.A, rfl, rfl⟩
  | 1 => exact .inl ⟨.B, rfl, rfl⟩
  | 2 => exact .inl ⟨.X, rfl, rfl⟩
  | 3 => exact .inr ⟨rfl, rfl⟩

/-- Format C (R91): the code of a channel, the illegal code 3, or a bit that must be 0. -/
theorem decodeC_cases (f : Channel → Instr) (arg : BitVec 4) :
    (∃ ch, arg = 0#2 ++ channelCode ch ∧ decodeC f arg = .ok (f ch)) ∨
      (arg = 3 ∧ decodeC f arg = .error .illegalChannel) ∨ decodeC f arg = .error .mustBeZero := by
  have hsplit : arg = arg.extractLsb' 2 2 ++ arg.extractLsb' 0 2 := by decide +revert
  by_cases h : arg.extractLsb' 2 2 = 0#2
  · rw [h] at hsplit
    rcases channelOfCode_cases (arg.extractLsb' 0 2) with ⟨ch, hc, he⟩ | ⟨hc, he⟩
    · exact .inl ⟨ch, hc ▸ hsplit, by simp [decodeC, h, he]⟩
    · rw [hc] at hsplit
      exact .inr (.inl ⟨hsplit, by simp [decodeC, h, he]⟩)
  · exact .inr (.inr (if_neg h))

/-- Format E (R91): a bank and a `kind` below 4, or a bit that must be 0. -/
theorem decodeE_cases (f : Nat → Bank → Instr) (arg : BitVec 4) :
    (∃ kind bank, kind < 4 ∧ arg = 0#1 ++ (bankBit bank ++ BitVec.ofNat 2 kind : BitVec 3) ∧
      decodeE f arg = .ok (f kind bank)) ∨ decodeE f arg = .error .mustBeZero := by
  have hbits : ¬ arg.getLsbD 3 = true → arg = 0#1 ++ (bankBit (bankOfBit (arg.getLsbD 2)) ++
      BitVec.ofNat 2 (arg.extractLsb' 0 2).toNat : BitVec 3) := by decide +revert
  by_cases h : arg.getLsbD 3 = true
  · exact .inr (if_pos h)
  · exact .inl ⟨_, _, (arg.extractLsb' 0 2).isLt, hbits h, if_neg h⟩

/-- Format W (R91): `sel`, or a bit that must be 0. -/
theorem decodeW_cases (arg : BitVec 4) :
    (arg = 0 ∧ decodeW arg = .ok .waitRetry) ∨ (arg = 1 ∧ decodeW arg = .ok .waitCycle) ∨
      decodeW arg = .error .mustBeZero := by
  decide +revert

/-! #### What an answer of the decoder says of the word -/

/-- What the answer `r` of the decoder says of the word `w`: an operation is one that the encoder gives `w` for, and an
error names what R93 (a) to (c) finds wrong. Case (d) needs the issuer, which `decode` does not see. -/
def AnswerFits (w : Byte) : Except DecodeError Instr → Prop
  | .ok i => encode i = w ∧ i.wellFormed = true
  | .error .reservedOp => 0xD ≤ (opField w).toNat
  | .error .mustBeZero => (opField w).toNat < 0xD
  | .error .illegalChannel => w = 0x43 ∨ w = 0x53
  | .error .notFromRot => False

/-- A row of format Z (R92). -/
theorem answerFits_decodeZ {w : Byte} {op : BitVec 4} {i : Instr} (hop : (opField w).toNat = op.toNat)
    (hlt : op.toNat < 0xD) (henc : encode i = op ++ 0#4) (hwf : i.wellFormed = true) :
    AnswerFits w (decodeZ i (argField w)) := by
  rcases decodeZ_cases i (argField w) with ⟨harg, e⟩ | e <;> rw [e]
  · exact ⟨henc.trans (append_eq_of_fields hop harg), hwf⟩
  · exact hop.trans_lt hlt

/-- A row of format C (R92): its code 3 is one of the two words named. -/
theorem answerFits_decodeC {w : Byte} {op : BitVec 4} {f : Channel → Instr} (hop : (opField w).toNat = op.toNat)
    (hlt : op.toNat < 0xD) (henc : ∀ ch, encode (f ch) = op ++ (0#2 ++ channelCode ch : BitVec 4))
    (hwf : ∀ ch, (f ch).wellFormed = true) (hbad : op ++ 3#4 = 0x43#8 ∨ op ++ 3#4 = 0x53#8) :
    AnswerFits w (decodeC f (argField w)) := by
  rcases decodeC_cases f (argField w) with ⟨ch, harg, e⟩ | ⟨harg, e⟩ | e <;> rw [e]
  · exact ⟨(henc ch).trans (append_eq_of_fields hop harg), hwf ch⟩
  · exact append_eq_of_fields hop harg ▸ hbad
  · exact hop.trans_lt hlt

/-- The row of format E (R92). -/
theorem answerFits_decodeE {w : Byte} (hop : (opField w).toNat = 0x7) :
    AnswerFits w (decodeE .peEncode (argField w)) := by
  rcases decodeE_cases .peEncode (argField w) with ⟨kind, bank, hk, harg, e⟩ | e <;> rw [e]
  · exact ⟨append_eq_of_fields (op := 0x7) hop harg, decide_eq_true hk⟩
  · exact hop.trans_lt (by decide)

/-- The two rows of format W (R92). -/
theorem answerFits_decodeW {w : Byte} (hop : (opField w).toNat = 0xC) :
    AnswerFits w (decodeW (argField w)) := by
  rcases decodeW_cases (argField w) with ⟨harg, e⟩ | ⟨harg, e⟩ | e <;> rw [e]
  · exact ⟨append_eq_of_fields (op := 0xC) hop harg, rfl⟩
  · exact ⟨append_eq_of_fields (op := 0xC) hop harg, rfl⟩
  · exact hop.trans_lt (by decide)

/-- Row by row of R92, every answer of the decoder fits the word. -/
theorem decode_fits (w : Byte) : AnswerFits w (decode w) := by
  unfold decode
  split
  case h_1 hop => exact answerFits_decodeZ (op := 0x0) hop (by decide) rfl rfl
  case h_2 hop => exact answerFits_decodeZ (op := 0x1) hop (by decide) rfl rfl
  case h_3 hop => exact answerFits_decodeZ (op := 0x2) hop (by decide) rfl rfl
  case h_4 hop => exact answerFits_decodeZ (op := 0x3) hop (by decide) rfl rfl
  case h_5 hop => exact answerFits_decodeC (op := 0x4) hop (by decide) (fun _ => rfl) (fun _ => rfl) (.inl rfl)
  case h_6 hop => exact answerFits_decodeC (op := 0x5) hop (by decide) (fun _ => rfl) (fun _ => rfl) (.inr rfl)
  case h_7 hop => exact answerFits_decodeZ (op := 0x6) hop (by decide) rfl rfl
  case h_8 hop => exact answerFits_decodeE hop
  case h_9 hop => exact answerFits_decodeZ (op := 0x8) hop (by decide) rfl rfl
  case h_10 hop => exact answerFits_decodeZ (op := 0x9) hop (by decide) rfl rfl
  case h_11 hop => exact answerFits_decodeZ (op := 0xA) hop (by decide) rfl rfl
  case h_12 hop => exact answerFits_decodeZ (op := 0xB) hop (by decide) rfl rfl
  case h_13 hop => exact answerFits_decodeW hop
  case h_14 =>
    simp only [imp_false] at *
    exact show 0xD ≤ (opField w).toNat by omega

/-- What the word is, from the answer. -/
theorem answerFits_of_decode {w : Byte} {r : Except DecodeError Instr} (h : decode w = r) : AnswerFits w r :=
  h ▸ decode_fits w

/-- The decoder reads back what the encoder wrote (R90 to R92). -/
theorem decode_encode {i : Instr} (h : i.wellFormed = true) : decode (encode i) = .ok i := by
  cases i
  case raaPush ch => cases ch <;> rfl
  case raaAvg ch => cases ch <;> rfl
  case peEncode kind bank =>
    have hk : kind < 4 := of_decide_eq_true h
    interval_cases kind <;> cases bank <;> rfl
  all_goals rfl

/-- A word decodes to the one well-formed operation that it is the word of. -/
theorem decode_ok_iff {w : Byte} {i : Instr} : decode w = .ok i ↔ encode i = w ∧ i.wellFormed = true := by
  refine ⟨answerFits_of_decode, ?_⟩
  rintro ⟨rfl, hwf⟩
  exact decode_encode hwf

/-- ROT's words are decoded as anyone's are, and `ROT.STEP` among them (R93 d; log entry 18). -/
theorem decodeFrom_rot (w : Byte) : decodeFrom .rot w = decode w := by
  cases hd : decode w <;> simp [decodeFrom, hd]

/-- Settles O1: the word is decoded, and only `ROT.STEP` depends on who issues it. -/
theorem decodeOfEncodeIsIdentity : Obligations.DecodeOfEncodeIsIdentity := by
  unfold Obligations.DecodeOfEncodeIsIdentity
  intro i hwf
  have hd := decode_encode hwf
  exact ⟨hd, decodeFrom_rot _ ▸ hd, fun hi => ⟨decodeFrom_of_decode .orc hd hi, decodeFrom_of_decode .host hd hi⟩⟩

/-- Settles O2, from what every answer of the decoder says of its word. -/
theorem encodeOfDecodeIsIdentity : Obligations.EncodeOfDecodeIsIdentity := fun _ _ => decode_ok_iff.1

/-- Settles O4: each word is the encoder's for its operation. -/
theorem writtenOutWordsDecode : Obligations.WrittenOutWordsDecode :=
  ⟨decode_encode (i := .tsdDecode) rfl, decode_encode (i := .fppRead) rfl, decode_encode (i := .raaPush .B) rfl,
    decode_encode (i := .raaAvg .X) rfl, decode_encode (i := .peEncode 1 .AV) rfl, decode_encode (i := .rotStep) rfl,
    decode_encode (i := .waitCycle) rfl⟩

end Sys2Proof.Machine

/-! ### O3: the legal and the illegal words -/

namespace Sys2Proof.Machine

/-! #### The issuers -/

/-- `ROT.STEP` has the word 0xB0 and no other (R92). -/
theorem decode_ok_rotStep_iff {w : Byte} : decode w = .ok .rotStep ↔ w = 0xB0 :=
  decode_ok_iff.trans ⟨fun h => h.1.symm, fun h => ⟨h.symm, rfl⟩⟩

/-- From any issuer but ROT the word 0xB0 is illegal, and every other word is what `decode` says (R93 d). -/
theorem decodeFrom_of_ne_rot {issuer : Issuer} (h : issuer ≠ .rot) (w : Byte) :
    decodeFrom issuer w = if w = 0xB0 then .error .notFromRot else decode w := by
  simp only [← decode_ok_rotStep_iff]
  cases hd : decode w <;> simp [decodeFrom, hd, h]

/-- The other reasons of R93 do not depend on the issuer. -/
theorem decodeFrom_error_iff {issuer : Issuer} {w : Byte} {e : DecodeError} (h : issuer ≠ .rot) (he : e ≠ .notFromRot) :
    decodeFrom issuer w = .error e ↔ decode w = .error e := by
  rw [decodeFrom_of_ne_rot h]
  by_cases hw : w = 0xB0
  · rw [if_pos hw, decode_ok_rotStep_iff.2 hw]
    simp [he.symm]
  · rw [if_neg hw]

/-- The host may issue the words of the well-formed operations other than `ROT.STEP`. -/
theorem decodeFrom_host_ok_iff {w : Byte} {i : Instr} :
    decodeFrom .host w = .ok i ↔ encode i = w ∧ i.wellFormed = true ∧ i ≠ .rotStep := by
  constructor
  · intro h
    obtain ⟨henc, hwf⟩ := decode_ok_iff.1 (decode_of_decodeFrom h)
    exact ⟨henc, hwf, decodeFrom_ne_rotStep h nofun⟩
  · rintro ⟨henc, hwf, hi⟩
    exact decodeFrom_of_decode .host (decode_ok_iff.2 ⟨henc, hwf⟩) hi

/-! #### The list of the legal words -/

/-- The operations of the ORC and host side with all their operands, in the order of R92. -/
def hostInstrs : List Instr :=
  [.nop, .tsdDecode, .fppParse, .fppCmd, .raaPush .A, .raaPush .B, .raaPush .X, .raaAvg .A, .raaAvg .B, .raaAvg .X,
    .raaAdv, .peEncode 0 .S, .peEncode 1 .S, .peEncode 2 .S, .peEncode 3 .S, .peEncode 0 .AV, .peEncode 1 .AV,
    .peEncode 2 .AV, .peEncode 3 .AV, .indBand, .auxSample, .fppRead, .waitRetry, .waitCycle]

/-- The list is complete, and holds nothing else. -/
theorem mem_hostInstrs_iff {i : Instr} : i ∈ hostInstrs ↔ i.wellFormed = true ∧ i ≠ .rotStep := by
  constructor
  · have hall : ∀ i ∈ hostInstrs, i.wellFormed = true ∧ i ≠ .rotStep := by decide
    exact hall i
  · rintro ⟨hwf, hi⟩
    cases i
    case rotStep => exact absurd rfl hi
    case raaPush ch => cases ch <;> decide
    case raaAvg ch => cases ch <;> decide
    case peEncode kind bank =>
      have hk : kind < 4 := of_decide_eq_true hwf
      interval_cases kind <;> cases bank <;> decide
    all_goals decide

/-- A word is legal from the host exactly when it is the word of an operation of the list. -/
theorem legal_from_host_iff (w : Byte) :
    (∃ i, decodeFrom .host w = .ok i) ↔ w.toNat ∈ hostInstrs.map fun i => (encode i).toNat := by
  simp only [decodeFrom_host_ok_iff, ← mem_hostInstrs_iff, List.mem_map, BitVec.toNat_inj, and_comm (a := encode _ = w)]

/-! #### The reasons of the illegal words -/

/-- No word of an operation has a reserved operation code (R92). -/
theorem encode_op_lt {i : Instr} (h : i.wellFormed = true) : (opField (encode i)).toNat < 0xD := by
  by_cases hi : i = .rotStep
  · subst hi
    decide
  · have hall : ∀ i ∈ hostInstrs, (opField (encode i)).toNat < 0xD := by decide
    exact hall i (mem_hostInstrs_iff.2 ⟨h, hi⟩)

/-- R93 (a): the reserved operation codes, whatever the argument. -/
theorem decode_reservedOp_iff (w : Byte) : decode w = .error .reservedOp ↔ 0xD ≤ (opField w).toNat := by
  refine ⟨answerFits_of_decode, fun h => ?_⟩
  cases hd : decode w with
  | ok i =>
    obtain ⟨rfl, hwf⟩ := answerFits_of_decode hd
    exact absurd h (Nat.not_le.2 (encode_op_lt hwf))
  | error e =>
    have hfits := answerFits_of_decode hd
    cases e with
    | reservedOp => rfl
    | mustBeZero => exact absurd h (Nat.not_le.2 hfits)
    | illegalChannel => rcases hfits with rfl | rfl <;> exact absurd h (by decide)
    | notFromRot => exact hfits.elim

/-- R93 (c): channel code 3 with no other fault. -/
theorem decode_illegalChannel_iff (w : Byte) : decode w = .error .illegalChannel ↔ w = 0x43 ∨ w = 0x53 := by
  refine ⟨answerFits_of_decode, ?_⟩
  rintro (rfl | rfl) <;> rfl

/-- R93 (d) is not `decode`'s to find: it does not see the issuer. -/
theorem decode_ne_notFromRot (w : Byte) : decode w ≠ .error .notFromRot := fun h => answerFits_of_decode h

/-- `ILLEGAL_OP` is of the fatal class: the flag is set, and the code where the flag was clear (R274). -/
theorem raise_illegalOp (w : Byte) (s : State) : raise w .illegalOp s = { s with
    status := .illegalOp, fatal := true, fatalCode := if s.fatal then s.fatalCode else .illegalOp
    ev := s.ev ++ [.report w .illegalOp] } := by
  cases hf : s.fatal <;> simp [raise, fatalAfter, fatalCodeAfter, Status.isFatal, hf]

/-- Settles O3, clause by clause: the list, the issuers, the reasons, the four kinds, the completion. -/
theorem legalWordsAreTheListed : Obligations.LegalWordsAreTheListed := by
  unfold Obligations.LegalWordsAreTheListed
  have hhost := decodeFrom_of_ne_rot (issuer := .host) nofun
  refine ⟨legal_from_host_iff, fun w => ?orc, fun w => ?rot, fun w => ?reserved, fun w => ?channel,
    fun w => ?notFromRot, fun bank kind hk => ?kinds, fun issuer w e s h => ?completion⟩
  case orc => rw [hhost, decodeFrom_of_ne_rot (issuer := .orc) nofun]
  case rot =>
    rw [decodeFrom_rot, hhost]
    by_cases hw : w = 0xB0
    · exact ⟨fun _ => .inr hw, fun _ => ⟨_, decode_ok_rotStep_iff.2 hw⟩⟩
    · simp only [hw, if_false, or_false]
  case reserved =>
    exact (decodeFrom_error_iff (by decide) (by decide)).trans (opField_toNat w ▸ decode_reservedOp_iff w)
  case channel => exact (decodeFrom_error_iff (by decide) (by decide)).trans (decode_illegalChannel_iff w)
  case notFromRot => simp [hhost, decode_ne_notFromRot]
  case kinds => exact ⟨_, decodeFrom_host_ok_iff.2 ⟨rfl, decide_eq_true hk, nofun⟩⟩
  case completion => rw [issue_illegal h, raise_illegalOp]

end Sys2Proof.Machine

/-! ### O5: the status codes -/

namespace Sys2Proof.Machine

/-- The codes of R96 are 0 to 8 and 15. -/
theorem status_code_toNat (st : Status) : st.code.toNat ≤ 8 ∨ st.code.toNat = 15 := by
  cases st <;> decide

/-- Settles O5: the table is the definition's, and no status is between its two parts. -/
theorem statusCodesAreTheListed : Obligations.StatusCodesAreTheListed := by
  unfold Obligations.StatusCodesAreTheListed
  refine ⟨rfl, fun st => ?_⟩
  have hcode := status_code_toNat st
  omega

end Sys2Proof.Machine

/-! ### O22: the checksum and the unpacking of the five bytes -/

namespace Sys2Proof.Machine

/-- A byte at the low end of a bit vector is its last digit in base 256. -/
theorem append_byte_toNat {n : Nat} (hi : BitVec n) (lo : Byte) : (hi ++ lo).toNat = hi.toNat * 256 + lo.toNat := by
  rw [BitVec.toNat_append, ← Nat.shiftLeft_add_eq_or_of_lt lo.isLt, Nat.shiftLeft_eq]

/-- R60: the 16-bit number of two bytes. -/
theorem be16_toNat (hi lo : Byte) : (be16 hi lo).toNat = hi.toNat * 256 + lo.toNat := append_byte_toNat hi lo

/-- R135: the check, on numbers. -/
theorem tsdCheck_iff (b : TsdBytes) :
    tsdCheck b = true ↔ b.b4.toNat = (b.b0.toNat + b.b1.toNat + b.b2.toNat + b.b3.toNat) % 256 := beq_iff_eq

/-- The magnitude of a temperature (R136): seven bits of byte 2 above byte 3. -/
def tsdMagnitude (b : TsdBytes) : Nat := b.b2.toNat % 128 * 256 + b.b3.toNat

/-- Fifteen bits: with either sign the magnitude is an `int16`. -/
theorem tsdMagnitude_lt (b : TsdBytes) : tsdMagnitude b < 2 ^ 15 := by
  have h2 := Nat.mod_lt b.b2.toNat (y := 128) (by decide)
  have h3 := b.b3.isLt
  unfold tsdMagnitude
  omega

/-- R136: sign and magnitude, on numbers. -/
theorem tsdTemp_eq (b : TsdBytes) :
    tsdTemp b = if b.b2.toNat ≥ 128 then -(tsdMagnitude b : Int) else tsdMagnitude b := by
  have hmag : (b.b2.extractLsb' 0 7 ++ b.b3).toNat = tsdMagnitude b := by
    rw [append_byte_toNat, BitVec.extractLsb'_toNat, Nat.shiftRight_zero, tsdMagnitude]
  have hsign : b.b2.getLsbD 7 = decide (128 ≤ b.b2.toNat) :=
    (BitVec.msb_eq_getLsbD_last b.b2).symm.trans (BitVec.msb_eq_decide b.b2)
  simp only [tsdTemp, hmag, hsign, decide_eq_true_eq, ge_iff_le]

/-- No temperature of the sensor is cut off by the register's sixteen bits. -/
theorem tsdUnpack_temp_toInt (b : TsdBytes) : (tsdUnpack b).temp.toInt = tsdTemp b := by
  have hlt := tsdMagnitude_lt b
  obtain ⟨hlow, hhigh⟩ : -2 ^ 15 ≤ tsdTemp b ∧ tsdTemp b < 2 ^ 15 := by
    rw [tsdTemp_eq]
    split <;> omega
  exact BitVec.toInt_ofInt_eq_self (by decide) hlow hhigh

/-- Settles O22, from the number of a byte pair and the sign and magnitude of a temperature. -/
theorem sensorABytesCheckAndUnpack : Obligations.SensorABytesCheckAndUnpack := by
  unfold Obligations.SensorABytesCheckAndUnpack
  refine fun b => ⟨tsdCheck_iff b, ?humidity, ?temperature⟩
  case humidity => exact (be16_toNat b.b0 b.b1).trans (by rw [Nat.mul_comm])
  case temperature => rw [tsdUnpack_temp_toInt, tsdTemp_eq, Nat.mul_comm 256, tsdMagnitude]

end Sys2Proof.Machine

/-! ### O20: the first timeout of `TSD.DECODE` -/

namespace Sys2Proof.Machine

/-- A status outside the fatal class leaves `FATAL` and `FATAL_CODE` as they are (R274): the raise of an operation that
took answers of the host changes `STATUS` and the history. -/
theorem raise_emit_of_not_fatal (op : Byte) {st : Status} (es : List Event) (s : State) (h : Inputs)
    (hst : st.isFatal = false) :
    raise op st (emit es { s with host := h }) =
      { s with status := st, host := h, ev := s.ev ++ es ++ [.report op st] } := by
  simp [raise, emit, fatalAfter, fatalCodeAfter, hst]

/-- There is one first timeout, so it is the one that ends the operation (R138). -/
theorem tsdDecode_of_timeout {s : State} {f : Nat} (hf : f < 82)
    (hlong : (drawPulses 82 s.host).1.getD f 0 > Config.waitTimeout)
    (hshort : ∀ j < f, (drawPulses 82 s.host).1.getD j 0 ≤ Config.waitTimeout) :
    tsdDecode s = raise 0x10 (if f < 2 then .timeoutStart else .timeoutRecv)
      (emit ([.lineLow 8600, .lineRelease] ++ pulseEvents (drawPulses 82 s.host).1 (f + 1))
        { s with host := (drawPulses (f + 1) s.host).2 }) := by
  rcases tsdDecode_cases s with ⟨g, -, hglong, hgshort, e⟩ | ⟨hall, -⟩
  · have hfg : f = g := by
      rcases Nat.lt_trichotomy f g with h | h | h
      · exact absurd (hgshort f h) (Nat.not_le.2 hlong)
      · exact h
      · exact absurd (hshort g h) (Nat.not_le.2 hglong)
    rw [hfg, e]
  · exact absurd (hall f hf) (Nat.not_le.2 hlong)

/-- Settles O20: no status of a timeout is fatal, so the raise changes `STATUS` and the history alone. -/
theorem tsdDecodeEndsAtTheFirstTimeout : Obligations.TsdDecodeEndsAtTheFirstTimeout := by
  unfold Obligations.TsdDecodeEndsAtTheFirstTimeout
  intro s f hf w hlong hshort st
  have hst : st.isFatal = false := by
    by_cases h : f < 2
    · exact congrArg Status.isFatal (if_pos h)
    · exact congrArg Status.isFatal (if_neg h)
  rw [exec_eq_completed, completed, tsdDecode_of_timeout hf hlong hshort, raise_emit_of_not_fatal _ _ _ _ hst,
    ← List.append_assoc]

end Sys2Proof.Machine

/-! ### O21: the sample that `TSD.DECODE` reads -/

namespace Sys2Proof.Machine

/-- Where no wait is above the timeout, the durations decide (R131, R137). -/
theorem tsdDecode_of_complete {s : State}
    (hall : ∀ j < 82, (drawPulses 82 s.host).1.getD j 0 ≤ Config.waitTimeout) :
    tsdDecode s = tsdFinish (drawPulses 82 s.host).1
      (emit ([.lineLow 8600, .lineRelease] ++ pulseEvents (drawPulses 82 s.host).1 82)
        { s with host := (drawPulses 82 s.host).2 }) := by
  rcases tsdDecode_cases s with ⟨f, hf, hlong, -, -⟩ | ⟨-, e⟩
  · exact absurd (hall f hf) (Nat.not_le.2 hlong)
  · exact e

/-- Bit `n` of the forty is that of the high part `w[3 + 2n]` (R131). -/
theorem tsdBits_getD (w : List Nat) {n : Nat} (hn : n < 40) :
    (tsdBits w).getD n false = tsdBit (w.getD (3 + 2 * n) 0) := by
  simp [tsdBits, List.getD_eq_getElem?_getD, hn]

/-- Eight bits spell a number of one byte. -/
theorem pulseByte_lt (w : List Nat) (j : Nat) : pulseByte w j < 256 := by
  have hle : pulseByte w j ≤ ((List.range 8).map fun k => 2 ^ (7 - k)).sum :=
    List.sum_le_sum fun k _ => by
      split
      · exact Nat.le_refl _
      · exact Nat.zero_le _
  exact Nat.lt_succ_of_le hle

/-- The five bytes that the bits give are those that the durations spell (R133, R134). -/
theorem tsdByte_toNat (w : List Nat) {j : Nat} (hj : j < 5) : (tsdByte (tsdBits w) j).toNat = pulseByte w j := by
  have hsum : ((List.range 8).map fun k => ((tsdBits w).getD (8 * j + k) false).toNat * 2 ^ (7 - k)).sum =
      pulseByte w j := by
    refine congrArg List.sum (List.map_congr_left fun k hk => ?_)
    have hk := List.mem_range.1 hk
    rw [tsdBits_getD w (by omega), tsdBit, Config.bitThreshold]
    split
    · next h => rw [decide_eq_true h, Bool.toNat_true, one_mul]
    · next h => rw [decide_eq_false h, Bool.toNat_false, zero_mul]
  rw [tsdByte, hsum]
  exact Nat.mod_eq_of_lt (pulseByte_lt w j)

/-- R135: the check of a complete transaction, on the numbers that its durations spell. -/
theorem tsdCheck_tsdBytes_iff (w : List Nat) :
    tsdCheck (tsdBytes (tsdBits w)) = true ↔
      pulseByte w 4 = (pulseByte w 0 + pulseByte w 1 + pulseByte w 2 + pulseByte w 3) % 256 := by
  rw [tsdCheck_iff]
  simp [tsdBytes, tsdByte_toNat]

/-- R136: the sample of a complete transaction, on the numbers that its durations spell. -/
theorem tsdUnpack_tsdBytes (w : List Nat) :
    tsdUnpack (tsdBytes (tsdBits w)) =
      ⟨BitVec.ofInt 16 (if pulseByte w 2 ≥ 128 then -((pulseByte w 2 % 128 * 256 + pulseByte w 3 : Nat) : Int)
          else (pulseByte w 2 % 128 * 256 + pulseByte w 3 : Nat)),
        BitVec.ofNat 16 (pulseByte w 0 * 256 + pulseByte w 1)⟩ := by
  have hhum : be16 (tsdByte (tsdBits w) 0) (tsdByte (tsdBits w) 1) =
      BitVec.ofNat 16 (pulseByte w 0 * 256 + pulseByte w 1) := by
    rw [← tsdByte_toNat w (by decide : 0 < 5), ← tsdByte_toNat w (by decide : 1 < 5), ← be16_toNat,
      BitVec.ofNat_toNat, BitVec.setWidth_eq]
  rw [tsdUnpack, tsdTemp_eq]
  simp only [tsdMagnitude, tsdBytes, hhum, tsdByte_toNat w (by decide : 2 < 5), tsdByte_toNat w (by decide : 3 < 5)]

/-- A completion that writes `SA` after answers of the host. -/
theorem complete_emit_sample (es : List Event) (s : State) (h : Inputs) (a : SampleA) :
    complete { emit es { s with host := h } with sa := a } =
      { s with sa := a, status := .ok, host := h, ev := s.ev ++ es } := rfl

/-- Settles O21: the durations alone decide, and the check and the sample are those of the bytes they spell. -/
theorem tsdDecodeReadsTheSample : Obligations.TsdDecodeReadsTheSample := by
  unfold Obligations.TsdDecodeReadsTheSample
  refine ⟨decodeFrom_of_decode .host (decode_encode (i := .tsdDecode) rfl) nofun, ?_⟩
  intro s w b hall
  have hexec := exec_eq_completed .tsdDecode s
  rw [completed, tsdDecode_of_complete hall] at hexec
  refine ⟨fun hcheck => ?sample, fun hcheck => ?checksum⟩
  case sample =>
    rw [hexec, tsdFinish, if_pos ((tsdCheck_tsdBytes_iff w).2 hcheck), complete_emit_sample,
      ← List.append_assoc, tsdUnpack_tsdBytes]
  case checksum =>
    rw [hexec, tsdFinish, if_neg (mt (tsdCheck_tsdBytes_iff w).1 hcheck), raise_emit_of_not_fatal _ _ _ _ rfl,
      ← List.append_assoc, show encode .tsdDecode = 0x10 from rfl]

end Sys2Proof.Machine

/-! ### O17: the bytes that `FPP.READ` keeps -/

namespace Sys2Proof.Machine

/-- A read after the first `cap` bytes of `r` are written to the elements from 0 on. -/
theorem Memory.read_writeBytes_take {m : Memory} (h : m.wf = true) (r : List Byte) (cap j : Nat) :
    (m.writeBytes 0 (r.take cap)).read j = if j < min r.length cap then r.getD j 0 else m.read j := by
  rw [Memory.read_writeBytes h, List.length_take, Nat.min_comm]
  by_cases hj : j < min r.length cap
  · have hcap : j < cap := lt_of_lt_of_le hj (Nat.min_le_right ..)
    simp [hj, List.getD_eq_getElem?_getD, hcap]
  · simp [hj]

/-- R150: `FPP.READ` where the host answers with bytes. -/
theorem fppRead_of_bytes {s : State} {r : List Byte} {h : Inputs} (hd : s.host.drawRead = (.bytes r, h)) :
    fppRead s = { s with
      rxBuf := s.rxBuf.writeBytes 0 (r.take s.cfg.rxcap), rxLen := min r.length s.cfg.rxcap
      ev := s.ev ++ [.read (.bytes r)], host := h, status := .ok } := by
  simp [fppRead, hd, emit, complete, Nat.min_comm]

/-- A raise outside the fatal class behind one event of a host primitive: two events, and `STATUS` (R274). -/
theorem raise_event_of_not_fatal (op : Byte) {st : Status} (e : Event) (s : State) (h : Inputs)
    (hst : st.isFatal = false) :
    raise op st (emit [e] { s with host := h }) =
      { s with status := st, host := h, ev := s.ev ++ [e, .report op st] } := by
  rw [raise_emit_of_not_fatal op [e] s h hst, List.append_assoc, List.singleton_append]

/-- R150: `FPP.READ` where the host answers with the error. -/
theorem fppRead_of_transportError {s : State} {h : Inputs} (hd : s.host.drawRead = (.transportError, h)) :
    fppRead s = { s with
      rxLen := 0, status := .transport, host := h
      ev := s.ev ++ [.read .transportError, .report 0xA0 .transport] } := by
  simp only [fppRead, hostRead_eq, hd]
  exact raise_event_of_not_fatal _ _ { s with rxLen := 0 } h rfl

/-- Settles O17: one equation of `FPP.READ` for each answer of the host, and the laws of a written string of bytes. -/
theorem fppReadKeepsTheFirstBytes : Obligations.FppReadKeepsTheFirstBytes := by
  unfold Obligations.FppReadKeepsTheFirstBytes
  refine ⟨decodeFrom_of_decode .host (decode_encode (i := .fppRead) rfl) nofun, ?bytes, ?error⟩
  case bytes =>
    intro s r h hwf hd
    refine ⟨s.rxBuf.writeBytes 0 (r.take s.cfg.rxcap), ?_, Memory.wf_writeBytes hwf _ _,
      Memory.read_writeBytes_take hwf r _⟩
    rw [exec_eq_completed, completed, fppRead_of_bytes hd]
  case error =>
    intro s h hd
    rw [exec_eq_completed, completed, fppRead_of_transportError hd]

end Sys2Proof.Machine

/-! ### O18: the frame that `FPP.PARSE` judges -/

namespace Sys2Proof.Machine

/-! #### The valid bytes of the receive buffer -/

@[simp] theorem rxValid_length (s : State) : s.rxValid.length = s.rxLen := Memory.readBytes_length ..

/-- A valid byte is the element of the receive buffer (R160). -/
theorem byteAt_rxValid {s : State} {j : Nat} (hj : j < s.rxLen) : byteAt s.rxValid j = s.rxBuf.read j := by
  rw [byteAt, State.rxValid, Memory.readBytes_getD _ _ _ _ hj, Nat.zero_add]

/-- A sync marker of the valid bytes, as the scan looks for it. -/
theorem markerAt_iff (s : State) (i : Nat) :
    markerAt s i ↔ i + 1 < s.rxValid.length ∧
      byteAt s.rxValid i = Config.sync0 ∧ byteAt s.rxValid (i + 1) = Config.sync1 := by
  rw [rxValid_length]
  refine and_congr_right fun hi => ?_
  rw [byteAt_rxValid hi, byteAt_rxValid (Nat.lt_of_succ_lt hi)]
  rfl

/-- R156: the scan finds nothing exactly where there is no marker. -/
theorem fppScan_rxValid_none_iff (s : State) : fppScan s.rxValid = none ↔ ∀ i, ¬ markerAt s i := by
  simp only [fppScan_none_iff, markerAt_iff, not_and]

/-- R156, R161: the scan finds the first marker. -/
theorem fppScan_rxValid_some_iff (s : State) (i : Nat) : fppScan s.rxValid = some i ↔ firstMarkerAt s i := by
  rw [fppScan_some_iff, firstMarkerAt, markerAt_iff]
  refine and_congr_right fun ⟨hlen, _⟩ => forall₂_congr fun j hj => ?_
  have hjlen : j + 1 < s.rxValid.length := by omega
  rw [markerAt_iff, and_iff_right hjlen]

/-- R157: the check of a frame whose 32 bytes are valid, on numbers. -/
theorem fppCheck_rxValid_iff {s : State} {i : Nat} (hlen : i + 31 < s.rxLen) :
    fppCheck s.rxValid i = true ↔
      ((List.range 30).map fun j => (s.rxBuf.read (i + j)).toNat).sum % 65536 =
        256 * (s.rxBuf.read (i + 30)).toNat + (s.rxBuf.read (i + 31)).toNat := by
  have hsum : fppSum s.rxValid i =
      ((List.range 30).map fun j => (s.rxBuf.read (i + j)).toNat).sum % 65536 := by
    refine congrArg (fun l => List.sum l % 65536) (List.map_congr_left fun j hj => ?_)
    have hj : j < 30 := List.mem_range.1 hj
    rw [byteAt_rxValid (by omega)]
  rw [fppCheck, beq_iff_eq, hsum, be16_toNat, byteAt_rxValid (by omega), byteAt_rxValid hlen, Nat.mul_comm]

/-- R60: the 16-bit number of two bytes, from its value. -/
theorem be16_eq_ofNat (hi lo : Byte) : be16 hi lo = BitVec.ofNat 16 (256 * hi.toNat + lo.toNat) := by
  rw [Nat.mul_comm, ← be16_toNat, BitVec.ofNat_toNat, BitVec.setWidth_eq]

/-- R158: a field of a frame whose 32 bytes are valid. -/
theorem fppField_rxValid {s : State} {i : Nat} (hlen : i + 31 < s.rxLen) (f : Fin 12) :
    fppField s.rxValid i f =
      BitVec.ofNat 16 (256 * (s.rxBuf.read (i + 4 + 2 * f)).toNat + (s.rxBuf.read (i + 5 + 2 * f)).toNat) := by
  rw [fppField, be16_eq_ofNat, byteAt_rxValid (by omega), byteAt_rxValid (by omega)]

/-! #### The two ends of `FPP.PARSE` -/

/-- `FPP.PARSE` raises the status of a parse that fails; none of its statuses is fatal (R159, R280). -/
theorem fppParse_of_error {s : State} {st : Status} (h : fppParseBuffer s.rxValid = .error st) :
    fppParse s = { s with status := st, ev := s.ev ++ [.report 0x20 st] } := by
  have hst : st.isFatal = false := by
    have hall : ∀ st ∈ [Status.checksum, .frameNotFound, .incompleteFrame], st.isFatal = false := by decide
    exact hall st (fppParseBuffer_error h)
  have hraise := raise_emit_of_not_fatal 0x20 [] s s.host hst
  rw [emit, List.append_nil] at hraise
  simp only [fppParse, h]
  exact hraise

/-- `FPP.PARSE` writes the sample of a parse that succeeds (R159). -/
theorem fppParse_of_ok {s : State} {b : SampleB} (h : fppParseBuffer s.rxValid = .ok b) :
    fppParse s = { s with sb := b, status := .ok } := by
  simp only [fppParse, h]
  rfl

/-- R155: the parse at the first marker. -/
theorem fppParseBuffer_of_firstMarker {s : State} {i : Nat} (hm : firstMarkerAt s i) :
    fppParseBuffer s.rxValid =
      if i + 31 < s.rxLen then
        if fppCheck s.rxValid i then .ok (SampleB.ofFields (fppField s.rxValid i)) else .error .checksum
      else .error .incompleteFrame := by
  simp only [fppParseBuffer, (fppScan_rxValid_some_iff s i).2 hm, rxValid_length]

/-- Settles O18: the scan stops at the first marker, and the tests behind it read valid bytes only. -/
theorem fppParseJudgesTheFirstMarker : Obligations.FppParseJudgesTheFirstMarker := by
  unfold Obligations.FppParseJudgesTheFirstMarker
  refine ⟨decodeFrom_of_decode .host (decode_encode (i := .fppParse) rfl) nofun, fun s => ?_⟩
  simp only [exec_eq_completed, completed]
  refine ⟨fun hnone => ?noMarker, fun i hm hshort => ?incomplete, fun i hm hlen hsum => ?checksum,
    fun i hm hlen hsum => ?sample⟩
  case noMarker =>
    have hparse : fppParseBuffer s.rxValid = .error .frameNotFound := by
      simp only [fppParseBuffer, (fppScan_rxValid_none_iff s).2 hnone]
    rw [fppParse_of_error hparse]
  case incomplete =>
    have hparse := fppParseBuffer_of_firstMarker hm
    rw [if_neg hshort] at hparse
    rw [fppParse_of_error hparse]
  case checksum =>
    have hparse := fppParseBuffer_of_firstMarker hm
    rw [if_pos hlen, if_neg (mt (fppCheck_rxValid_iff hlen).1 hsum)] at hparse
    rw [fppParse_of_error hparse]
  case sample =>
    have hparse := fppParseBuffer_of_firstMarker hm
    rw [if_pos hlen, if_pos ((fppCheck_rxValid_iff hlen).2 hsum), funext (fppField_rxValid hlen)] at hparse
    rw [fppParse_of_ok hparse]
    rfl

end Sys2Proof.Machine

/-! ### O19: the frame that `FPP.CMD` sends -/

namespace Sys2Proof.Machine

/-- No row of the sequencer issues `FPP.CMD` (R165, R245). -/
theorem orcWord_ne_fppCmd (s : State) : orcWord s ≠ some 0x30 := by
  intro hw
  cases hp : s.orcPc <;> simp only [orcWord, hp, Option.some.injEq, reduceCtorEq] at hw
  case p11 | p12 => split at hw <;> exact absurd hw (by decide)
  all_goals exact absurd hw (by decide)

/-- The number of a high byte (R60). -/
theorem hiByte_toNat (v : U16) : (hiByte v).toNat = v.toNat / 256 := by
  have hv := v.isLt
  rw [hiByte, BitVec.extractLsb'_toNat, Nat.shiftRight_eq_div_pow]
  omega

/-- The number of a low byte (R60). -/
theorem loByte_toNat (v : U16) : (loByte v).toNat = v.toNat % 256 := by
  rw [loByte, BitVec.extractLsb'_toNat, Nat.shiftRight_zero]

/-- A high byte, from its number. -/
theorem hiByte_eq_ofNat (v : U16) : hiByte v = BitVec.ofNat 8 (v.toNat / 256) := by
  rw [← hiByte_toNat, BitVec.ofNat_toNat, BitVec.setWidth_eq]

/-- A low byte, from its number. -/
theorem loByte_eq_ofNat (v : U16) : loByte v = BitVec.ofNat 8 (v.toNat % 256) := by
  rw [← loByte_toNat, BitVec.ofNat_toNat, BitVec.setWidth_eq]

/-- The five bytes of a frame sum to less than the checksum's sixteen bits hold. -/
theorem fppCmdSum_toNat (op : Byte) (arg : U16) :
    (fppCmdSum op arg).toNat = 0x42 + 0x4D + op.toNat + arg.toNat / 256 + arg.toNat % 256 := by
  have hop := op.isLt
  have harg := arg.isLt
  rw [fppCmdSum, hiByte_toNat, loByte_toNat]
  refine Nat.mod_eq_of_lt (b := 2 ^ 16) ?_
  have h0 : Config.sync0.toNat = 0x42 := rfl
  have h1 : Config.sync1.toNat = 0x4D := rfl
  omega

/-- The command frame, its bytes as numbers (R102, R165). -/
theorem fppCmdFrame_eq (op : Byte) (arg : U16) :
    let ck := 0x42 + 0x4D + op.toNat + arg.toNat / 256 + arg.toNat % 256
    fppCmdFrame op arg = #v[0x42, 0x4D, op, BitVec.ofNat 8 (arg.toNat / 256), BitVec.ofNat 8 (arg.toNat % 256),
      BitVec.ofNat 8 (ck / 256), BitVec.ofNat 8 (ck % 256)] := by
  simp only [fppCmdFrame, hiByte_eq_ofNat, loByte_eq_ofNat, fppCmdSum_toNat, Config.sync0, Config.sync1]

/-- Settles O19, from the two ends of `FPP.CMD` and the bytes of the frame. -/
theorem fppCmdSendsTheFrame : Obligations.FppCmdSendsTheFrame := by
  unfold Obligations.FppCmdSendsTheFrame
  refine ⟨decodeFrom_of_decode .host (decode_encode (i := .fppCmd) rfl) nofun, orcWord_ne_fppCmd, ?_⟩
  intro s a h hd hi lo ck frame
  have hasked : fppCmdAsked s = emit [.write frame.toList a] { s with txBuf := frame, host := h } := by
    rw [fppCmdAsked, fppCmdFrame_eq, hostWrite_eq, hd]
  rw [exec_eq_completed, completed]
  refine ⟨fun ha => ?sent, fun ha => ?failed⟩
  case sent =>
    have hsent : s.host.drawWrite.1 = .count Config.cmdLen := by rw [hd]; exact ha
    rw [fppCmd_of_sent hsent, hasked]
    rfl
  case failed =>
    have hfailed : s.host.drawWrite.1 ≠ .count Config.cmdLen := by rw [hd]; exact ha
    rw [fppCmd_of_failed hfailed, hasked]
    exact congrArg _ (raise_event_of_not_fatal _ _ { s with txBuf := frame } h rfl)

end Sys2Proof.Machine

/-! ### O44: the cycles turn the offset -/

namespace Sys2Proof.Machine

/-! #### The cycles begun, event by event -/

/-- The cycles of two histories one after the other. -/
theorem cyclesBegun_append (es es' : List Event) :
    cyclesBegun (es ++ es') = cyclesBegun es + cyclesBegun es' :=
  List.countP_append ..

/-- An event other than `Aux` begins no cycle. -/
theorem cyclesBegun_snoc {es : List Event} {e : Event} (h : ∀ v, e ≠ .aux v) :
    cyclesBegun (es ++ [e]) = cyclesBegun es := by
  rw [cyclesBegun_append]
  cases e with
  | aux v => exact absurd rfl (h v)
  | _ => rfl

/-- A raise appends one `Report`. -/
theorem cyclesBegun_raise (op : Byte) (st : Status) (s : State) :
    cyclesBegun (raise op st s).ev = cyclesBegun s.ev :=
  cyclesBegun_snoc nofun

/-- The answer to a read begins no cycle. -/
theorem cyclesBegun_hostRead (s : State) : cyclesBegun (hostRead s).2.ev = cyclesBegun s.ev :=
  cyclesBegun_snoc nofun

/-- The answer to the write of `FPP.CMD` begins no cycle. -/
theorem cyclesBegun_fppCmdAsked (s : State) : cyclesBegun (fppCmdAsked s).ev = cyclesBegun s.ev :=
  cyclesBegun_snoc nofun

/-- The events of a transaction's waits begin no cycle. -/
theorem cyclesBegun_pulses (w : List Nat) (n : Nat) :
    cyclesBegun ([.lineLow 8600, .lineRelease] ++ pulseEvents w n) = 0 := by
  simp [cyclesBegun, pulseEvents]

/-- `ROT.STEP` begins no cycle. -/
theorem cyclesBegun_rotStep (s : State) : cyclesBegun (rotStep s).ev = cyclesBegun s.ev := by
  rw [rotStep_ev, cyclesBegun_append]
  rfl

/-- `AUX.SAMPLE` begins a cycle (R180, R245). -/
theorem cyclesBegun_auxSample (s : State) : cyclesBegun (auxSample s).ev = cyclesBegun s.ev + 1 := by
  simp only [auxSample, hostAux_eq, complete_ev, emit_ev, cyclesBegun_append]
  rfl

/-- `TSD.DECODE` begins no cycle. -/
theorem cyclesBegun_tsdDecode (s : State) : cyclesBegun (tsdDecode s).ev = cyclesBegun s.ev := by
  have waits (h : Inputs) (w : List Nat) (n : Nat) :
      cyclesBegun (emit ([.lineLow 8600, .lineRelease] ++ pulseEvents w n) { s with host := h }).ev =
        cyclesBegun s.ev := by
    rw [emit_ev, cyclesBegun_append, cyclesBegun_pulses, Nat.add_zero]
  rcases tsdDecode_cases s with ⟨f, -, -, -, e⟩ | ⟨-, e⟩ <;> rw [e]
  · rw [cyclesBegun_raise, waits]
  · rcases tsdFinish_cases _ _ with ⟨a, e⟩ | e <;> rw [e]
    · exact waits _ _ _
    · rw [cyclesBegun_raise, waits]

/-- No operation but `AUX.SAMPLE` begins a cycle. -/
theorem cyclesBegun_completed {i : Instr} (s : State) (hi : i ≠ .auxSample) :
    cyclesBegun (completed i s).ev = cyclesBegun s.ev := by
  cases i with
  | auxSample => exact absurd rfl hi
  | tsdDecode => exact cyclesBegun_tsdDecode s
  | rotStep => exact cyclesBegun_rotStep s
  | nop | raaAdv => rfl
  | raaPush ch => cases ch <;> rfl
  | indBand | waitRetry | waitCycle => exact cyclesBegun_snoc nofun
  | fppParse =>
    simp only [completed, fppParse]
    split
    · exact cyclesBegun_raise ..
    · rfl
  | raaAvg ch =>
    simp only [completed, raaAvg]
    split
    · exact cyclesBegun_raise ..
    · cases ch <;> rfl
  | peEncode kind bank =>
    simp only [completed, peEncode]
    split
    · rfl
    · exact cyclesBegun_raise ..
  | fppCmd =>
    simp only [completed]
    by_cases hsent : s.host.drawWrite.1 = .count Config.cmdLen
    · rw [fppCmd_of_sent hsent, complete_ev, cyclesBegun_fppCmdAsked]
    · rw [fppCmd_of_failed hsent, cyclesBegun_raise, cyclesBegun_fppCmdAsked]
  | fppRead =>
    simp only [completed, fppRead]
    split
    · rw [cyclesBegun_raise, cyclesBegun_hostRead]
    · rw [complete_ev, cyclesBegun_hostRead]

/-! #### The offset and the cycles through a row -/

/-- The value of `nextOff`. -/
@[simp] theorem nextOff_val (o : Fin 10) : (nextOff o).val = (o.val + 1) % 10 := rfl

/-- Which row samples the scalar. -/
theorem rowInstr_eq_auxSample_iff (s : State) : rowInstr s = .auxSample ↔ s.orcPc = .p0 := by
  cases hp : s.orcPc <;> simp only [rowInstr, hp]
  case p11 | p12 => split <;> simp
  all_goals simp

/-- Which row moves the offset. -/
theorem rowInstr_eq_raaAdv_iff (s : State) : rowInstr s = .raaAdv ↔ s.orcPc = .p15 := by
  cases hp : s.orcPc <;> simp only [rowInstr, hp]
  case p11 | p12 => split <;> simp
  all_goals simp

/-- The cycles begun through a row: `P0` begins one. -/
theorem rowDone_cyclesBegun (s : State) :
    cyclesBegun (rowDone s).ev = if s.orcPc = .p0 then cyclesBegun s.ev + 1 else cyclesBegun s.ev := by
  have hiff := rowInstr_eq_auxSample_iff s
  split
  · next hp =>
    rw [rowDone, hiff.2 hp]
    exact cyclesBegun_auxSample (afterTurn s)
  · next hp => exact cyclesBegun_completed (afterTurn s) fun h => hp (hiff.1 h)

/-- `OFF` through a row. -/
theorem rowDone_off (s : State) : (rowDone s).off = if s.orcPc = .p15 then nextOff s.off else s.off := by
  have hiff := rowInstr_eq_raaAdv_iff s
  split
  · next hp => rw [rowDone, hiff.2 hp]; rfl
  · next hp => exact (completed_writesOnly _ _).off fun h => hp (hiff.1 h)

/-- R193 b and c, R254 c: a row leads from the values of its state to those of the next one, or to `HALT`. -/
theorem cycleOk_sequence {s : State} (a : Fin 61) (h : cycleOk s) (hr : s.run = true) (hidle : s.orcPc ≠ .idle)
    (hhalt : s.orcPc ≠ .halt) : cycleOk (sequence s.orcPc a (rowDone s)) := by
  intro _
  replace h := h hr
  have hT := rowDone_cyclesBegun s
  have hO := rowDone_off s
  have hX := rowDone_cntX s
  generalize rowDone s = u at hT hO hX ⊢
  cases hfat : u.fatal
  case true => simp [hfat]
  case false =>
    cases hp : s.orcPc
    case idle => exact absurd hp hidle
    case halt => exact absurd hp hhalt
    case p2 | p5 | p6 =>
      cases hok : u.status == .ok <;> by_cases hlt : a.val < Config.maxAttempts <;>
      · simp [hp, hok, hlt, hfat, orcNext, hT, hO, hX] at h ⊢
        omega
    all_goals
      simp [hp, hfat, orcNext, hT, hO, hX] at h ⊢
      omega

/-! #### The cycles through each kind of step -/

/-- After reset no cycle has begun. -/
theorem cycleOk_afterReset (cfg : Params) (run : Bool) (host : Inputs) : cycleOk (State.afterReset cfg run host) := by
  intro hr
  cases hr
  exact ⟨rfl, rfl⟩

/-- `ROT.STEP` keeps the cycle: it writes neither `OFF` nor `CNT_X`, and begins none (R70, R215). -/
theorem cycleOk_rotStep {s : State} (h : cycleOk s) : cycleOk (rotStep s) := by
  simpa only [cycleOk, rotStep_run, rotStep_orcPc, rotStep_off, rotStep_cntX, cyclesBegun_rotStep] using h

/-- In direct mode there are no cycles. -/
theorem cycleOk_direct {s : State} (hr : s.run = false) : cycleOk s :=
  fun h => absurd h (ne_true_of_eq_false hr)

/-- Every step keeps the cycle. -/
theorem cycleOk_step {s t : State} (h : cycleOk s) (hst : step s = .next t) : cycleOk t := by
  rcases step_operations hst with ⟨run, -, e⟩ | ⟨e, -⟩ | ⟨-, hr, hidle, hhalt, a, -, e⟩ |
    ⟨-, hr, host, i, -, e⟩ | ⟨-, hr, host, w, e⟩ <;> subst e
  · exact cycleOk_afterReset _ _ _
  · exact cycleOk_rotStep (s := afterTurn s) h
  · exact cycleOk_sequence a h hr hidle hhalt
  · exact cycleOk_direct ((completed_writesOnly i _).run.trans hr)
  · exact cycleOk_direct hr

/-- Settles O44: `P0` begins the cycle, `P1` pushes the scalar, `P15` moves the offset, and no other step touches any of
the three. -/
theorem cyclesTurnTheOffset : Obligations.CyclesTurnTheOffset :=
  ⟨cycleOk_afterReset _ _ _, fun _ _ => cycleOk_step⟩

end Sys2Proof.Machine

/-! ### O12: `RAA.AVG` -/

namespace Sys2Proof.Machine

/-! #### The words of the host -/

/-- The host may issue the word of every well-formed operation but `ROT.STEP` (R92, R93 d). -/
theorem decodeFrom_host_encode {i : Instr} (hwf : i.wellFormed = true) (hi : i ≠ .rotStep) :
    decodeFrom .host (encode i) = .ok i :=
  decodeFrom_host_ok_iff.2 ⟨rfl, hwf, hi⟩

/-- R93 c: channel code 3 is illegal from the host too. -/
theorem decodeFrom_host_illegalChannel {w : Byte} (h : w = 0x43 ∨ w = 0x53) :
    decodeFrom .host w = .error .illegalChannel :=
  (decodeFrom_error_iff (by decide) (by decide)).2 ((decode_illegalChannel_iff w).2 h)

/-! #### Rounding toward minus infinity -/

/-- R10: the quotient toward minus infinity. -/
theorem isFloorMean_floorMeanInt (xs : List Int) {m : Nat} (hm : 0 < m) : isFloorMean (floorMeanInt xs m) xs m := by
  have hpos : (0 : Int) < m := Int.natCast_pos.2 hm
  rw [isFloorMean, floorMeanInt, Int.fdiv_eq_ediv_of_nonneg _ hpos.le]
  exact ⟨Int.ediv_mul_le _ hpos.ne', Int.lt_ediv_add_one_mul_self _ hpos⟩

/-- R189: for unsigned numbers that quotient is the ordinary one. -/
theorem floorMeanNat_map_cast {α : Type} (g : α → Nat) (xs : List α) (m : Nat) :
    (floorMeanNat (xs.map g) m : Int) = floorMeanInt (xs.map fun a => (g a : Int)) m := by
  have hsum : ((xs.map g).sum : Int) = (xs.map fun a => (g a : Int)).sum := by
    rw [Nat.cast_list_sum, List.map_map]
    rfl
  rw [floorMeanNat, floorMeanInt, Int.fdiv_eq_ediv_of_nonneg _ (Int.natCast_nonneg m), Int.natCast_ediv, hsum]

/-- A mean lies in every interval that holds all of its numbers. -/
theorem isFloorMean_bounds {q lo hi : Int} {xs : List Int} {m : Nat} (h : isFloorMean q xs m) (hlen : xs.length = m)
    (hm : 0 < m) (hxs : ∀ x ∈ xs, lo ≤ x ∧ x < hi) : lo ≤ q ∧ q < hi := by
  subst hlen
  obtain ⟨hle, hlt⟩ := h
  have hpos : (0 : Int) < xs.length := Int.natCast_pos.2 hm
  have hlo : lo * xs.length ≤ xs.sum := by
    simpa [mul_comm] using List.card_nsmul_le_sum xs lo fun x hx => (hxs x hx).1
  have hhi : xs.sum ≤ (hi - 1) * xs.length := by
    simpa [mul_comm] using List.sum_le_card_nsmul xs (hi - 1) fun x hx => Int.le_sub_one_of_lt (hxs x hx).2
  have hlo' : lo < q + 1 := lt_of_mul_lt_mul_right (hlo.trans_lt hlt) hpos.le
  have hhi' : q ≤ hi - 1 := le_of_mul_le_mul_right (hle.trans hhi) hpos
  omega

/-! #### The mean of a field fits its register -/

/-- The mean of a signed field is not cut off by the sixteen bits. -/
theorem isFloorMean_ofInt {α : Type} (g : α → U16) {xs : List α} {m : Nat} (hlen : xs.length = m) (hm : 0 < m) :
    isFloorMean (BitVec.ofInt 16 (floorMeanInt (xs.map fun a => (g a).toInt) m)).toInt
      (xs.map fun a => (g a).toInt) m := by
  have hmean := isFloorMean_floorMeanInt (xs.map fun a => (g a).toInt) hm
  have hfield : ∀ x ∈ xs.map fun a => (g a).toInt, -2 ^ 15 ≤ x ∧ x < 2 ^ 15 :=
    List.forall_mem_map.2 fun a _ => ⟨BitVec.le_toInt (g a), BitVec.toInt_lt⟩
  obtain ⟨hlow, hhigh⟩ := isFloorMean_bounds hmean ((List.length_map _).trans hlen) hm hfield
  rwa [BitVec.toInt_ofInt_eq_self (by decide) hlow hhigh]

/-- The mean of an unsigned field is not cut off by its bits. -/
theorem isFloorMean_ofNat {α : Type} {n : Nat} (g : α → BitVec n) {xs : List α} {m : Nat} (hlen : xs.length = m)
    (hm : 0 < m) :
    isFloorMean (BitVec.ofNat n (floorMeanNat (xs.map fun a => (g a).toNat) m)).toNat
      (xs.map fun a => ((g a).toNat : Int)) m := by
  have hmean := isFloorMean_floorMeanInt (xs.map fun a => ((g a).toNat : Int)) hm
  have hfield : ∀ x ∈ xs.map fun a => ((g a).toNat : Int), 0 ≤ x ∧ x < ((2 ^ n : Nat) : Int) :=
    List.forall_mem_map.2 fun a _ => ⟨Int.natCast_nonneg _, Int.ofNat_lt.2 (g a).isLt⟩
  obtain ⟨-, hhigh⟩ := isFloorMean_bounds hmean ((List.length_map _).trans hlen) hm hfield
  rw [← floorMeanNat_map_cast] at hmean hhigh
  rwa [BitVec.toNat_ofNat, Nat.mod_eq_of_lt (Int.ofNat_lt.1 hhigh)]

/-! #### The two ends of `RAA.AVG` -/

/-- R32, R188: a counter is at most 10, so it is the number of elements averaged. -/
@[simp] theorem windowCount_eq (c : Fin 11) : windowCount c = c.val :=
  Nat.min_eq_left (Nat.le_of_lt_succ c.isLt)

/-- The window has an element for every index below a counter. -/
theorem window_length {α : Type} (h : Vector α 10) (c : Fin 11) : (h.toList.take c.val).length = c.val := by
  rw [List.length_take, Vector.length_toList]
  exact Nat.min_eq_left (Nat.le_of_lt_succ c.isLt)

/-- Each field of a sample B of fields is the one given (R21). -/
theorem field_ofFields (g : Fin 12 → U16) (f : Fin 12) : (SampleB.ofFields g).field f = g f := by
  fin_cases f <;> rfl

/-- R188: a field of the mean of samples B is the mean of the field. -/
theorem meanB_field (h : Vector SampleB 10) (m : Nat) (f : Fin 12) :
    (meanB h m).field f = BitVec.ofNat 16 (floorMeanNat ((h.toList.take m).map fun b => (b.field f).toNat) m) :=
  field_ofFields _ f

/-- R188: `RAA.AVG` on a window that is not empty. -/
theorem raaAvg_of_pos {ch : Channel} {s : State} (h : 0 < s.cnt ch) : raaAvg ch s = complete (writeMean ch s) :=
  if_neg (Fin.pos_iff_ne_zero.1 h)

/-- A raise of the fatal class sets the flag, and the code where the flag was clear (R274). -/
theorem raise_of_fatal (op : Byte) {st : Status} (s : State) (h : st.isFatal = true) : raise op st s = { s with
    status := st, fatal := true, fatalCode := if s.fatal then s.fatalCode else st
    ev := s.ev ++ [.report op st] } := by
  cases hf : s.fatal <;> simp [raise, fatalAfter, fatalCodeAfter, h, hf]

/-- R188: `RAA.AVG` on an empty window. -/
theorem raaAvg_of_empty {ch : Channel} {s : State} (h : s.cnt ch = 0) :
    raaAvg ch s = { s with
      status := .emptyWindow, fatal := true, fatalCode := if s.fatal then s.fatalCode else .emptyWindow
      ev := s.ev ++ [.report (encode (.raaAvg ch)) .emptyWindow] } := by
  rw [raaAvg, if_pos h, raise_of_fatal _ _ rfl]

/-- Settles O12: the quotient is the mean toward minus infinity, and a mean of numbers of a register's range is in that
range. -/
theorem raaAvgIsTheFloorMean : Obligations.RaaAvgIsTheFloorMean := by
  unfold Obligations.RaaAvgIsTheFloorMean
  simp only [exec_eq_completed, completed]
  refine ⟨⟨decodeFrom_host_encode (i := .raaAvg .A) rfl nofun, decodeFrom_host_encode (i := .raaAvg .B) rfl nofun,
    decodeFrom_host_encode (i := .raaAvg .X) rfl nofun, decodeFrom_host_illegalChannel (.inr rfl)⟩,
    fun s h => ?A, fun s h => ?B, fun s h => ?X, fun s ch h => ?empty⟩
  case A =>
    have hlen := window_length s.histA s.cntA
    refine ⟨meanA s.histA s.cntA, ?_, isFloorMean_ofInt SampleA.temp hlen h, isFloorMean_ofNat SampleA.hum hlen h⟩
    rw [raaAvg_of_pos (ch := .A) h, writeMean, windowCount_eq]
    rfl
  case B =>
    have hlen := window_length s.histB s.cntB
    refine ⟨meanB s.histB s.cntB, ?_, fun f => ?_⟩
    · rw [raaAvg_of_pos (ch := .B) h, writeMean, windowCount_eq]
      rfl
    · rw [meanB_field]
      exact isFloorMean_ofNat (fun b : SampleB => b.field f) hlen h
  case X =>
    have hlen := window_length s.histX s.cntX
    refine ⟨meanX s.histX s.cntX, ?_, isFloorMean_ofNat (fun x : Byte => x) hlen h⟩
    rw [raaAvg_of_pos (ch := .X) h, writeMean, windowCount_eq]
    rfl
  case empty =>
    rw [raaAvg_of_empty h]
    cases ch <;> rfl

end Sys2Proof.Machine

/-! ### O10, O11, O13: `AUX.SAMPLE`, `RAA.PUSH`, `RAA.ADV` -/

namespace Sys2Proof.Machine

/-- R180: `AUX.SAMPLE` where the host answers `v`. -/
theorem auxSample_of_answer {s : State} {v : Byte} {h : Inputs} (hd : s.host.drawAux = (v, h)) :
    auxSample s = { s with sx := v, ev := s.ev ++ [.aux v], host := h, status := .ok } := by
  simp only [auxSample, hostAux_eq, hd]
  rfl

/-- Settles O10: the operation asks once, and the answer is the register and the event. -/
theorem auxSampleTakesTheAnswer : Obligations.AuxSampleTakesTheAnswer := by
  unfold Obligations.AuxSampleTakesTheAnswer
  refine ⟨decodeFrom_host_encode (i := .auxSample) rfl nofun, fun s v h hd => ?_⟩
  rw [exec_eq_completed, completed, auxSample_of_answer hd]

/-- Settles O11, channel by channel: the new count is that of `bumpCnt`, and the window is written at `OFF`. -/
theorem raaPushWritesAtTheOffset : Obligations.RaaPushWritesAtTheOffset := by
  unfold Obligations.RaaPushWritesAtTheOffset
  refine ⟨⟨decodeFrom_host_encode (i := .raaPush .A) rfl nofun, decodeFrom_host_encode (i := .raaPush .B) rfl nofun,
    decodeFrom_host_encode (i := .raaPush .X) rfl nofun, decodeFrom_host_illegalChannel (.inl rfl)⟩, fun s => ?_⟩
  exact ⟨⟨_, bumpCnt_val s.cntA, exec_eq_completed (.raaPush .A) s⟩,
    ⟨_, bumpCnt_val s.cntB, exec_eq_completed (.raaPush .B) s⟩,
    ⟨_, bumpCnt_val s.cntX, exec_eq_completed (.raaPush .X) s⟩⟩

/-- Settles O13: the new offset is that of `nextOff`. -/
theorem raaAdvTurnsTheOffset : Obligations.RaaAdvTurnsTheOffset := by
  unfold Obligations.RaaAdvTurnsTheOffset
  exact ⟨decodeFrom_host_encode (i := .raaAdv) rfl nofun, fun s => ⟨_, nextOff_val s.off, exec_eq_completed .raaAdv s⟩⟩

end Sys2Proof.Machine

/-! ### O15: the bytes of a record -/

namespace Sys2Proof.Machine

/-! #### The word `W` -/

/-- Two bit vectors side by side, as numbers. -/
theorem append_toNat {m n : Nat} (hi : BitVec m) (lo : BitVec n) :
    (hi ++ lo).toNat = hi.toNat * 2 ^ n + lo.toNat := by
  rw [BitVec.toNat_append, ← Nat.shiftLeft_add_eq_or_of_lt lo.isLt, Nat.shiftLeft_eq]

/-- R207: the clamped magnitude fits its eleven bits. -/
theorem tempMagnitude_ofNat_toNat (t : U16) : (BitVec.ofNat 11 (tempMagnitude t)).toNat = tempMagnitude t :=
  Nat.mod_eq_of_lt (Nat.lt_of_le_of_lt (Nat.min_le_right ..) (by decide))

/-- R201, R207: sign and clamped magnitude, on numbers. -/
theorem tempField_toNat (t : U16) :
    (tempField t).toNat = (if t.toInt < 0 then 1 else 0) * 2 ^ 11 + min t.toInt.natAbs 2047 := by
  rw [tempField, append_toNat, tempMagnitude_ofNat_toNat, BitVec.toNat_ofBool, tempMagnitude]
  by_cases h : t.toInt < 0 <;> simp [h]

/-- R201, R208: the word `W`, on numbers. -/
theorem packHead_toNat (a : SampleA) {kind : Nat} (hk : kind < 4) : (packHead a kind).toNat = headNumber a kind := by
  have hkind : (BitVec.ofNat 2 kind).toNat = kind := Nat.mod_eq_of_lt hk
  have hhum : (humField a.hum).toNat = a.hum.toNat % 1024 := by simp [humField]
  rw [packHead, append_toNat, append_toNat, hkind, tempField_toNat, hhum, headNumber, Nat.add_assoc]

/-- R200: the three bytes of a 24-bit word, most significant first. -/
theorem headBytes_toNat (w : BitVec 24) :
    (w.extractLsb' 16 8).toNat = w.toNat / 65536 ∧ (w.extractLsb' 8 8).toNat = w.toNat / 256 % 256 ∧
      (w.extractLsb' 0 8).toNat = w.toNat % 256 := by
  have hw := w.isLt
  refine ⟨?_, ?_, ?_⟩ <;> rw [BitVec.extractLsb'_toNat, Nat.shiftRight_eq_div_pow] <;> omega

/-! #### Pairs and counts -/

/-- R202: the first byte of a pair, as a number. -/
theorem pairHigh_toNat (hi : U16) : (pairHigh hi).toNat = hi.toNat / 16 % 256 := by
  rw [pairHigh, BitVec.extractLsb'_toNat, Nat.shiftRight_eq_div_pow]

/-- R202: the middle byte of a pair, as a number. The bits that a wide `hi` loses at the top are above the byte. -/
theorem pairMiddle_toNat (hi lo : U16) :
    (pairMiddle hi lo).toNat = (hi.toNat * 16 ||| lo.toNat / 256) % 256 := by
  have hcut : hi.toNat * 16 % 2 ^ 16 % 2 ^ 8 = hi.toNat * 16 % 2 ^ 8 := by omega
  rw [pairMiddle, BitVec.extractLsb'_toNat, Nat.shiftRight_zero, BitVec.toNat_or, BitVec.toNat_shiftLeft,
    BitVec.toNat_ushiftRight, Nat.shiftLeft_eq, Nat.shiftRight_eq_div_pow, Nat.or_mod_two_pow, hcut,
    ← Nat.or_mod_two_pow]

/-- R202: the three bytes of a pair. -/
theorem packedPair_pairBytes (hi lo : U16) : packedPair (pairHigh hi) (pairMiddle hi lo) (loByte lo) hi lo :=
  ⟨pairHigh_toNat hi, pairMiddle_toNat hi lo, loByte_toNat lo⟩

/-- R203: the two bytes of a count, in either order. -/
theorem packedCount_countBytes (e : Bool) (v : U16) : packedCount e (countFirst e v) (countSecond e v) v := by
  cases e
  case false => exact ⟨loByte_toNat v, hiByte_toNat v⟩
  case true => exact ⟨hiByte_toNat v, loByte_toNat v⟩

/-- Settles O15: the bytes of the word `W`, then pair by pair and count by count. -/
theorem packedRecordBytes : Obligations.PackedRecordBytes := by
  unfold Obligations.PackedRecordBytes
  intro e a b x kind hk bytes
  exact ⟨packHead_toNat a hk ▸ headBytes_toNat (packHead a kind), packedPair_pairBytes .., packedPair_pairBytes ..,
    packedPair_pairBytes .., packedCount_countBytes .., packedCount_countBytes .., packedCount_countBytes ..,
    packedCount_countBytes .., packedCount_countBytes .., packedCount_countBytes .., rfl⟩

end Sys2Proof.Machine

/-! ### O16: unpacking a packed record -/

namespace Sys2Proof.Machine

/-! #### Kind and sample A -/

/-- The first three bytes of a packed record are the word `W` again. -/
theorem unpackHead_pePack (e : Bool) (a : SampleA) (b : SampleB) (x : Byte) (kind : Nat) :
    unpackHead (pePack e a b x kind) = packHead a kind := by
  have hlow : (packHead a kind).extractLsb' 8 8 ++ (packHead a kind).extractLsb' 0 8 =
      (packHead a kind).extractLsb' 0 16 := BitVec.extractLsb'_append_extractLsb'_eq_extractLsb' rfl
  calc unpackHead (pePack e a b x kind)
      = (packHead a kind).extractLsb' 16 8 ++
          ((packHead a kind).extractLsb' 8 8 ++ (packHead a kind).extractLsb' 0 8) := rfl
    _ = (packHead a kind).extractLsb' 16 8 ++ (packHead a kind).extractLsb' 0 16 := by rw [hlow]
    _ = packHead a kind := BitVec.extractLsb'_append_extractLsb' (w := 8)

/-- The three fields of the word `W` (R201) are found where they were put. -/
theorem packHead_fields (a : SampleA) (kind : Nat) :
    (packHead a kind).extractLsb' 22 2 = BitVec.ofNat 2 kind ∧ (packHead a kind).extractLsb' 10 12 = tempField a.temp ∧
      (packHead a kind).extractLsb' 0 10 = humField a.hum := by
  refine ⟨BitVec.extractLsb'_append_eq_left, ?temperature, ?humidity⟩
  case temperature =>
    rw [packHead, BitVec.extractLsb'_append_eq_of_add_le (by decide), BitVec.extractLsb'_append_eq_left]
  case humidity =>
    rw [packHead, BitVec.extractLsb'_append_eq_of_add_le (by decide), BitVec.extractLsb'_append_eq_right]

/-- The kind of a packed record (R209). -/
theorem unpackKind_pePack (e : Bool) (a : SampleA) (b : SampleB) (x : Byte) {kind : Nat} (hk : kind < 4) :
    unpackKind (pePack e a b x kind) = kind := by
  obtain ⟨hkind, -, -⟩ := packHead_fields a kind
  rw [unpackKind, unpackHead_pePack, hkind]
  exact Nat.mod_eq_of_lt hk

/-- A packed temperature keeps its sign, and its magnitude clamped (R207). -/
theorem unpackTemp_pePack (e : Bool) (a : SampleA) (b : SampleB) (x : Byte) (kind : Nat) :
    unpackTemp (pePack e a b x kind) =
      if a.temp.toInt < 0 then -(tempMagnitude a.temp : Int) else tempMagnitude a.temp := by
  obtain ⟨-, htemp, -⟩ := packHead_fields a kind
  have hsign : (tempField a.temp).getLsbD 11 = decide (a.temp.toInt < 0) := by
    rw [tempField, BitVec.getLsbD_append]
    exact BitVec.getLsbD_ofBool ..
  have hmag : ((tempField a.temp).extractLsb' 0 11).toNat = tempMagnitude a.temp := by
    rw [tempField, BitVec.extractLsb'_append_eq_right, tempMagnitude_ofNat_toNat]
  simp only [unpackTemp, unpackHead_pePack, htemp, hsign, hmag, decide_eq_true_eq]

/-- Inside the field widths the sample A comes back (R209). -/
theorem unpackA_pePack (e : Bool) {a : SampleA} (b : SampleB) (x : Byte) (kind : Nat)
    (htemp : a.temp.toInt.natAbs ≤ 2047) (hhum : a.hum.toNat ≤ 1023) : unpackA (pePack e a b x kind) = a := by
  have hmag : tempMagnitude a.temp = a.temp.toInt.natAbs := Nat.min_eq_left htemp
  have ht : unpackTemp (pePack e a b x kind) = a.temp.toInt := by
    rw [unpackTemp_pePack, hmag]
    split <;> omega
  have hh : ((unpackHead (pePack e a b x kind)).extractLsb' 0 10).setWidth 16 = a.hum := by
    obtain ⟨-, -, hfield⟩ := packHead_fields a kind
    rw [unpackHead_pePack, hfield, humField]
    apply BitVec.eq_of_toNat_eq
    rw [BitVec.toNat_setWidth, BitVec.extractLsb'_toNat, Nat.shiftRight_zero]
    omega
  rw [unpackA, ht, hh, BitVec.ofInt_toInt]

/-! #### Sample B -/

/-- Where the second value of a pair has twelve bits, the middle byte is four bits of each (R202). -/
theorem pairMiddle_toNat_of_narrow (hi : U16) {lo : U16} (hlo : lo.toNat ≤ 4095) :
    (pairMiddle hi lo).toNat = hi.toNat % 16 * 16 + lo.toNat / 256 := by
  have hor : hi.toNat <<< 4 + lo.toNat / 256 = hi.toNat <<< 4 ||| lo.toNat / 256 :=
    Nat.shiftLeft_add_eq_or_of_lt (by omega) hi.toNat
  rw [Nat.shiftLeft_eq] at hor
  rw [pairMiddle_toNat, ← hor]
  omega

/-- Two values of twelve bits come back from the three bytes of their pair (R209). -/
theorem unpackPair_pairBytes {hi lo : U16} (hhi : hi.toNat ≤ 4095) (hlo : lo.toNat ≤ 4095) :
    unpackPairHi (pairHigh hi) (pairMiddle hi lo) = hi ∧ unpackPairLo (pairMiddle hi lo) (loByte lo) = lo := by
  have hmid := pairMiddle_toNat_of_narrow hi hlo
  refine ⟨BitVec.eq_of_toNat_eq ?first, BitVec.eq_of_toNat_eq ?second⟩
  case first =>
    rw [unpackPairHi, append_toNat, append_toNat, pairHigh_toNat, BitVec.extractLsb'_toNat, hmid,
      Nat.shiftRight_eq_div_pow, BitVec.toNat_ofNat]
    omega
  case second =>
    rw [unpackPairLo, append_toNat, append_toNat, loByte_toNat, BitVec.extractLsb'_toNat, hmid, Nat.shiftRight_zero,
      BitVec.toNat_ofNat]
    omega

/-- R60: a 16-bit number is its two bytes. -/
theorem be16_hiByte_loByte (v : U16) : be16 (hiByte v) (loByte v) = v := BitVec.extractLsb'_append_extractLsb' (w := 8)

/-- A count comes back from its two bytes, in either order (R209). -/
theorem unpackCount_countBytes (e : Bool) (v : U16) : unpackCount e (countFirst e v) (countSecond e v) = v := by
  cases e <;> exact be16_hiByte_loByte v

/-- The twelve fields are all of a sample B (R21). -/
theorem SampleB.eq_of_field_eq {b b' : SampleB} (h : ∀ f, b.field f = b'.field f) : b = b' := by
  have hb : ∀ c : SampleB, SampleB.ofFields c.field = c := fun _ => rfl
  rw [← hb b, ← hb b', funext h]

/-- Narrow concentrations come back (R209). -/
theorem unpackB_field_of_pair (e : Bool) (a : SampleA) {b : SampleB} (x : Byte) (kind : Nat)
    (hb : ∀ f : Fin 12, f.val < 6 → (b.field f).toNat ≤ 4095) {f : Fin 12} (hf : f.val < 6) :
    (unpackB e (pePack e a b x kind)).field f = b.field f := by
  obtain ⟨h0, h1⟩ := unpackPair_pairBytes (hb 0 (by decide)) (hb 1 (by decide))
  obtain ⟨h2, h3⟩ := unpackPair_pairBytes (hb 2 (by decide)) (hb 3 (by decide))
  obtain ⟨h4, h5⟩ := unpackPair_pairBytes (hb 4 (by decide)) (hb 5 (by decide))
  match f with
  | 0 => exact h0
  | 1 => exact h1
  | 2 => exact h2
  | 3 => exact h3
  | 4 => exact h4
  | 5 => exact h5
  | 6 | 7 | 8 | 9 | 10 | 11 => exact absurd hf (by decide)

/-- Counts come back whatever their values (R209). -/
theorem unpackB_field_of_count (e : Bool) (a : SampleA) (b : SampleB) (x : Byte) (kind : Nat) {f : Fin 12}
    (hf : 6 ≤ f.val) : (unpackB e (pePack e a b x kind)).field f = b.field f := by
  match f with
  | 0 | 1 | 2 | 3 | 4 | 5 => exact absurd hf (by decide)
  | 6 => exact unpackCount_countBytes e b.pc0
  | 7 => exact unpackCount_countBytes e b.pc1
  | 8 => exact unpackCount_countBytes e b.pc2
  | 9 => exact unpackCount_countBytes e b.pc3
  | 10 => exact unpackCount_countBytes e b.pc4
  | 11 => exact unpackCount_countBytes e b.pc5

/-- Inside the field widths the sample B comes back (R209). -/
theorem unpackB_pePack (e : Bool) (a : SampleA) {b : SampleB} (x : Byte) (kind : Nat)
    (hb : ∀ f : Fin 12, f.val < 6 → (b.field f).toNat ≤ 4095) : unpackB e (pePack e a b x kind) = b := by
  refine SampleB.eq_of_field_eq fun f => ?_
  rcases Nat.lt_or_ge f.val 6 with hf | hf
  · exact unpackB_field_of_pair e a x kind hb hf
  · exact unpackB_field_of_count e a b x kind hf

/-- Settles O16, part by part of the record. -/
theorem unpackOfPackIsIdentity : Obligations.UnpackOfPackIsIdentity := by
  unfold Obligations.UnpackOfPackIsIdentity
  refine ⟨fun e a b x kind hk htemp hhum hb => ?bounded, fun e a b x kind => ?unbounded⟩
  case bounded =>
    rw [peUnpack, unpackKind_pePack e a b x (Nat.lt_succ_of_le hk), unpackA_pePack e b x kind htemp hhum,
      unpackB_pePack e a x kind hb]
    rfl
  case unbounded => exact ⟨fun f hf => unpackB_field_of_count e a b x kind hf, rfl⟩

end Sys2Proof.Machine

/-! ### O14, O23, O34: `PE.ENCODE`, `ROT.STEP`, `HALT` -/

namespace Sys2Proof.Machine

/-! #### The two ends of `PE.ENCODE` -/

/-- R204: `PE.ENCODE` for a slot that exists. -/
theorem peEncode_of_slot (k : Fin 2) (bank : Bank) (s : State) :
    peEncode k.val bank s = complete (s.writeRecord k (packedNow s k bank)) :=
  dif_pos (show k.val < Config.numSlots from k.isLt)

/-- R204: `PE.ENCODE` for a slot that does not exist. -/
theorem peEncode_of_noSlot {kind : Nat} (hk : 2 ≤ kind) (bank : Bank) (s : State) :
    peEncode kind bank s = { s with
      status := .invalidSlot, fatal := true, fatalCode := if s.fatal then s.fatalCode else .invalidSlot
      ev := s.ev ++ [.report (encode (.peEncode kind bank)) .invalidSlot] } := by
  rw [peEncode, dif_neg (show ¬ kind < Config.numSlots from Nat.not_lt.2 hk), raise_of_fatal _ _ rfl]

/-- R91, R92: the word of `PE.ENCODE`, as a number. -/
theorem encode_peEncode_eq_ofNat {kind : Nat} (hk : kind < 4) (bank : Bank) :
    encode (.peEncode kind bank) = BitVec.ofNat 8 (0x70 + 4 * (bankBit bank).toNat + kind) := by
  interval_cases kind <;> cases bank <;> rfl

/-- Settles O14: a slot takes the packed record, and the two kinds without a slot raise. -/
theorem peEncodeWritesOneRecord : Obligations.PeEncodeWritesOneRecord := by
  unfold Obligations.PeEncodeWritesOneRecord
  simp only [exec_eq_completed, completed]
  refine ⟨⟨decodeFrom_host_encode (i := .peEncode 0 .S) rfl nofun,
    decodeFrom_host_encode (i := .peEncode 1 .AV) rfl nofun, decodeFrom_host_encode (i := .peEncode 2 .S) rfl nofun,
    decodeFrom_host_encode (i := .peEncode 3 .AV) rfl nofun, (decodeFrom_error_iff (by decide) (by decide)).2 rfl⟩,
    fun s k bank => ?slot, fun s kind bank hk hlt => ?noSlot⟩
  case slot =>
    rw [peEncode_of_slot]
    cases bank <;> rfl
  case noSlot =>
    rw [peEncode_of_noSlot hk, encode_peEncode_eq_ofNat hlt]
    cases bank <;> rfl

/-! #### `ROT.STEP` -/

/-- R31: the slot index turns. -/
@[simp] theorem nextRotIdx_val (k : Fin 2) : (nextRotIdx k).val = (k.val + 1) % 2 := rfl

/-- The next state of `ROT.STEP` (R215). -/
theorem rotStep_eq (s : State) : rotStep s = { s with
    rotIdx := nextRotIdx s.rotIdx
    ev := s.ev ++ [.advertise s.rotIdx (s.slot s.rotIdx).bytes, .delay .rot Config.slotDelay] } := by
  simp [rotStep, emit]

/-- Settles O23: the new index is that of `nextRotIdx`, and 0xB0 is legal from ROT alone. -/
theorem rotStepHandsOverOneSlot : Obligations.RotStepHandsOverOneSlot := by
  unfold Obligations.RotStepHandsOverOneSlot
  refine ⟨(decodeFrom_rot _).trans (decode_ok_rotStep_iff.2 rfl),
    (decodeFrom_of_ne_rot (issuer := .host) nofun _).trans (if_pos rfl), fun s => ⟨_, nextRotIdx_val s.rotIdx, ?_⟩⟩
  rw [exec_eq_completed, completed, rotStep_eq]
  rfl

/-! #### `HALT` -/

/-- Where the sequencer has no row, ROT takes its turn (log entry 4). -/
theorem step_of_noRow {s : State} (hr : s.run = true) (ht : turnOf s = .orc) (hw : orcWord s = none) :
    step s = .next (rotStep (afterTurn s)) := by
  have hw' : orcWord (afterTurn s) = none := hw
  rw [step_eq_takeTurn, ht]
  simp only [takeTurn, afterTurn_run, hr, orcTurn, hw', rotTurn_eq]

/-- In `HALT` every step but a reset is one `ROT.STEP` (R249). -/
theorem step_of_halt {s : State} (hr : s.run = true) (hp : s.orcPc = .halt) (hne : ∀ run, turnOf s ≠ .reset run) :
    step s = .next (rotStep (afterTurn s)) := by
  cases ht : turnOf s with
  | reset run => exact absurd ht (hne run)
  | rot => exact step_of_rotTurn ht
  | orc => exact step_of_noRow hr ht ((orcWord_none_iff s).2 (.inr hp))

/-- Settles O34: `ROT.STEP` writes neither the sequencer's state nor a slot. -/
theorem haltIsLeftByResetOnly : Obligations.HaltIsLeftByResetOnly := by
  unfold Obligations.HaltIsLeftByResetOnly
  intro s hr hp hne
  have hstep := step_of_halt hr hp hne
  refine ⟨hstep.trans (exec_eq_completed .rotStep _).symm, fun t hst => ?_⟩
  rw [hstep] at hst
  injection hst with e
  subst e
  exact ⟨(rotStep_orcPc _).trans hp, rotStep_slots _⟩

end Sys2Proof.Machine

/-! ### O6, O7, O8, O9: `NOP`, `WAIT.RETRY`, `WAIT.CYCLE`, `IND.BAND` -/

namespace Sys2Proof.Machine

/-- R251: `P11` issues `NOP` where the window of sensor A is empty. -/
theorem orcWord_of_emptyA {s : State} (hp : s.orcPc = .p11) (h0 : s.cntA = 0) : orcWord s = some 0x00 := by
  simp [orcWord, hp, h0]

/-- R251: `P12` issues `NOP` where the window of sensor B is empty. -/
theorem orcWord_of_emptyB {s : State} (hp : s.orcPc = .p12) (h0 : s.cntB = 0) : orcWord s = some 0x00 := by
  simp [orcWord, hp, h0]

/-- Settles O6: 0x00 is the word of `NOP`, and `NOP` completes at once. -/
theorem nopOnlyWritesOk : Obligations.NopOnlyWritesOk := by
  unfold Obligations.NopOnlyWritesOk
  have hhost : decodeFrom .host 0x00 = .ok .nop := decodeFrom_host_encode (i := .nop) rfl nofun
  exact ⟨hhost, decodeFrom_of_decode .orc (decode_of_decodeFrom hhost) nofun, exec_eq_completed .nop,
    fun _ => orcWord_of_emptyA, fun _ => orcWord_of_emptyB⟩

/-- Settles O7: the new count is that of `bumpNfail`. -/
theorem waitRetryDelaysAndCounts : Obligations.WaitRetryDelaysAndCounts := by
  unfold Obligations.WaitRetryDelaysAndCounts
  exact ⟨decodeFrom_host_encode (i := .waitRetry) rfl nofun,
    fun s => ⟨_, bumpNfail_val s.nfail, exec_eq_completed .waitRetry s⟩⟩

/-- R233: the rest of the period as the spec writes it, over the integers. -/
theorem cycleRest_eq_max (s : State) : (cycleRest s : Int) = max 0 ((s.cfg.tCycle : Int) - 2000 * s.nfail.val) := by
  rw [cycleRest, show Config.retryDelay = 2000 from rfl]
  omega

/-- Settles O8: the delay is that of `cycleRest`. -/
theorem waitCycleDelaysTheRest : Obligations.WaitCycleDelaysTheRest := by
  unfold Obligations.WaitCycleDelaysTheRest
  exact ⟨decodeFrom_host_encode (i := .waitCycle) rfl nofun,
    fun s => ⟨_, cycleRest_eq_max s, exec_eq_completed .waitCycle s⟩⟩

/-- R237: the band of a value is the number of thresholds below it. -/
theorem bandOf_eq_length_filter (v : U16) (thresholds : List Nat) :
    bandOf v thresholds = (thresholds.filter (· < v.toNat)).length :=
  List.countP_eq_length_filter

/-- R237: with five thresholds in each list, no band is cut off at 5. -/
theorem bandOfPair_val (pm25 pm100 : U16) :
    (bandOfPair pm25 pm100).val = max (bandOf pm25 Config.t25) (bandOf pm100 Config.t100) := by
  have h25 : bandOf pm25 Config.t25 ≤ 5 := List.countP_le_length
  have h100 : bandOf pm100 Config.t100 ≤ 5 := List.countP_le_length
  exact min_eq_left (max_le h25 h100)

/-- R236, R239: the band that is driven, as a number of thresholds. -/
theorem newBand_val (s : State) :
    (newBand s).val = if s.cntB = 0 then 5 else
      max (bandOf s.avb.aePm25 Config.t25) (bandOf s.avb.aePm100 Config.t100) := by
  unfold newBand
  split
  · rfl
  · exact bandOfPair_val ..

/-- Settles O9: the new band is `newBand`, and each of its two bands counts the thresholds below the value. -/
theorem indBandDrivesTheHigherBand : Obligations.IndBandDrivesTheHigherBand := by
  unfold Obligations.IndBandDrivesTheHigherBand
  refine ⟨decodeFrom_host_encode (i := .indBand) rfl nofun, fun s => ⟨newBand s, ?_, exec_eq_completed .indBand s⟩⟩
  simp only [newBand_val, bandOf_eq_length_filter, Config.t25, Config.t100]

end Sys2Proof.Machine

/-! ### O31: the rows of the ORC program -/

namespace Sys2Proof.Machine

/-- A row follows the table where its operation, `ATT` at its end and its next state are those of the table (R245). -/
theorem followsRow_of_row {s : State} {i : Instr} {a : Fin 61} {att : Bool → Nat} {next : Bool → OrcPc}
    (hr : s.run = true) (ht : turnOf s = .orc) (hrow : s.orcPc ≠ .idle ∧ s.orcPc ≠ .halt)
    (ha : attAfterRow s.orcPc s.att = some a) (hi : rowInstr s = i)
    (hatt : ∀ ok, (attAtEnd s.orcPc (orcNext s.orcPc ok a) a).val = att ok)
    (hnext : ∀ ok, orcNext s.orcPc ok a = next ok) : followsRow s i att next := by
  refine ⟨completed i (afterTurn s), _, exec_eq_completed .., hatt _, ?_⟩
  rw [step_of_row hr ht hrow.1 hrow.2 ha, hi, ← hnext]
  rfl

/-- A row without an attempt: `ATT` is not counted up (R245). -/
theorem followsRow_of_plainRow {s : State} {i : Instr} {pc : OrcPc} {att : Bool → Nat} {next : Bool → OrcPc}
    (hr : s.run = true) (ht : turnOf s = .orc) (hp : s.orcPc = pc) (hpc : pc ∉ [.idle, .halt, .p2, .p5])
    (hi : rowInstr s = i) (hatt : ∀ ok, (attAtEnd pc (orcNext pc ok s.att) s.att).val = att ok)
    (hnext : ∀ ok, orcNext pc ok s.att = next ok) : followsRow s i att next := by
  subst hp
  simp only [List.mem_cons, List.not_mem_nil, or_false, not_or] at hpc
  obtain ⟨hidle, hhalt, h2, h5⟩ := hpc
  exact followsRow_of_row hr ht ⟨hidle, hhalt⟩ (if_neg (by simp [h2, h5])) hi hatt hnext

/-- A row that makes an attempt: `ATT` is counted up first (R245). -/
theorem followsRow_of_attempt {s : State} {i : Instr} {pc : OrcPc} {att : Bool → Nat} {next : Bool → OrcPc}
    (hr : s.run = true) (ht : turnOf s = .orc) (hp : s.orcPc = pc) (hpc : pc = .p2 ∨ pc = .p5)
    (hi : rowInstr s = i) (hlt : s.att.val + 1 < 61)
    (hatt : ∀ ok, (attAtEnd pc (orcNext pc ok ⟨s.att.val + 1, hlt⟩) ⟨s.att.val + 1, hlt⟩).val = att ok)
    (hnext : ∀ ok, orcNext pc ok ⟨s.att.val + 1, hlt⟩ = next ok) : followsRow s i att next := by
  subst hp
  have hrow : s.orcPc ≠ .idle ∧ s.orcPc ≠ .halt := by
    rcases hpc with hp | hp <;> simp [hp]
  exact followsRow_of_row hr ht hrow ((if_pos hpc).trans (dif_pos hlt)) hi hatt hnext

/-- Settles O31, row by row; only `P2`, `P5` and `P6` look at the outcome of their operation and at `ATT`. -/
theorem sequencerFollowsTheTable : Obligations.SequencerFollowsTheTable := by
  unfold Obligations.SequencerFollowsTheTable
  intro s hr ht
  have h60 : Config.maxAttempts = 60 := rfl
  refine ⟨fun hp => ?p0, fun hp => ?p1, fun hp hatt => ?p2, fun hp hatt => ?p2Last, fun hp => ?p3, fun hp => ?p4,
    fun hp hatt => ?p5, fun hp hatt => ?p5Last, fun hp hatt => ?p6, fun hp hatt => ?p6Last, fun hp => ?p7,
    fun hp => ?p8, fun hp => ?p9, fun hp => ?p10, fun hp => ?p11, fun hp => ?p12, fun hp => ?p13, fun hp => ?p14,
    fun hp => ?p15, fun hp => ?p16, (orcWord_none_iff s).2⟩
  case p2 | p2Last =>
    refine followsRow_of_attempt hr ht hp (.inl rfl) (by simp [rowInstr, hp]) (by omega) (fun ok => ?att)
      (fun ok => ?next)
    case att => cases ok <;> simp [attAtEnd, orcNext, h60, hatt]
    case next => simp [orcNext, h60, hatt]
  case p5 | p5Last =>
    exact followsRow_of_attempt hr ht hp (.inr rfl) (by simp [rowInstr, hp]) (by omega)
      (fun ok => by simp [attAtEnd, hatt]) (fun ok => by simp [orcNext, h60, hatt])
  case p6 | p6Last =>
    exact followsRow_of_plainRow hr ht hp (by decide) (by simp [rowInstr, hp]) (fun _ => rfl)
      (fun ok => by simp [orcNext, h60, hatt])
  all_goals exact followsRow_of_plainRow hr ht hp (by decide) (by simp [rowInstr, hp]) (fun _ => rfl) (fun _ => rfl)

end Sys2Proof.Machine

/-! ### O33, O41: direct mode, and progress -/

namespace Sys2Proof.Machine

/-- Settles O33: neither `ROT.STEP`, nor an operation of the host, nor a raise writes the sequencer's registers. -/
theorem directModeLeavesTheSequencer : Obligations.DirectModeLeavesTheSequencer := by
  unfold Obligations.DirectModeLeavesTheSequencer
  intro s t hst hr hne
  rcases step_operations hst with ⟨run, ht, -⟩ | ⟨e, -⟩ | ⟨-, hrun, -⟩ | ⟨-, -, host, i, -, e⟩ | ⟨-, -, host, w, e⟩
  · exact absurd ht (hne run)
  · subst e
    exact ⟨rotStep_orcPc _, rotStep_att _, (rotStep_run _).trans hr⟩
  · exact absurd hrun (ne_true_of_eq_false hr)
  · have hw := completed_writesOnly i { s with host := host }
    subst e
    exact ⟨hw.orcPc, hw.att, hw.run.trans hr⟩
  · subst e
    exact ⟨rfl, rfl, hr⟩

/-- Settles O41: within the bounds of the retry policy no attempt begins with `ATT = 60`, and nothing else can stop. -/
theorem invariantStatesAlwaysStep : Obligations.InvariantStatesAlwaysStep := fun _ => inv_progress

end Sys2Proof.Machine

/-! ### O45, O46: the bound on the steps of a cycle -/

namespace Sys2Proof.Machine

/-- R254 b: a step of the sequencer stays in run mode, and ends the cycle or lowers the bound on the steps left. -/
theorem step_descends {s t : State} (h : Inv s) (hr : s.run = true) (ht : turnOf s = .orc) (hst : step s = .next t) :
    t.run = true ∧
      (t.orcPc = .p0 ∨ cycleStepsLeft t.orcPc t.att.val < cycleStepsLeft s.orcPc s.att.val) := by
  obtain ⟨hfatal, -, hseq⟩ := h.runMode hr
  obtain ⟨a, ha, hst'⟩ := step_of_sequencerTurn h hr ht
  rw [hst'] at hst
  injection hst with e
  subst e
  exact ⟨(completed_writesOnly _ _).run.trans hr, sequence_descends hseq hfatal ha⟩

/-- Settles O45. -/
theorem sequencerStepsDescend : Obligations.SequencerStepsDescend :=
  fun _ _ h hr ht hst => (step_descends h hr ht hst).2

/-- Within the bounds of run mode there is always a step left. -/
theorem cycleStepsLeft_pos {s : State} (h : seqOk s) : 0 < cycleStepsLeft s.orcPc s.att.val := by
  obtain ⟨hidle, hhalt⟩ := seqOk_active h
  cases hp : s.orcPc
  case idle => exact absurd hp hidle
  case halt => exact absurd hp hhalt
  all_goals simp [cycleStepsLeft]

/-- Within the turns `l`, at least one of them the sequencer's, the machine gets to `P0`. -/
def EndsCycleWithin (l : List Turn) (s : State) : Prop :=
  ∃ n t, n ≤ l.length ∧ 0 < (l.take n).count .orc ∧ core.run n s = .next t ∧ t.orcPc = .p0

/-- The sequencer's step that ends the cycle is enough. -/
theorem EndsCycleWithin.of_last {l : List Turn} {s t : State} (hst : step s = .next t) (ht : t.orcPc = .p0) :
    EndsCycleWithin (.orc :: l) s :=
  ⟨1, t, by simp, by simp, (run_of_step hst 0).trans rfl, ht⟩

/-- One turn before the turns within which the cycle ends. -/
theorem EndsCycleWithin.of_step {x : Turn} {l : List Turn} {s t : State} (hst : step s = .next t)
    (h : EndsCycleWithin l t) : EndsCycleWithin (x :: l) s := by
  obtain ⟨n, u, hn, hcount, hrun, hu⟩ := h
  refine ⟨n + 1, u, Nat.succ_le_succ hn, ?_, (run_of_step hst n).trans hrun, hu⟩
  rw [List.take_succ_cons]
  exact lt_of_lt_of_le hcount List.count_le_count_cons

/-- R70: ROT's turn leaves `RUN` and the sequencer's registers. -/
theorem step_of_rotTurn_sequencer {s t : State} (ht : turnOf s = .rot) (hst : step s = .next t) :
    t.run = s.run ∧ t.orcPc = s.orcPc ∧ t.att = s.att := by
  rw [step_of_rotTurn ht] at hst
  injection hst with e
  subst e
  exact ⟨rotStep_run _, rotStep_orcPc _, rotStep_att _⟩

/-- R254 b: as many turns of the sequencer as the bound allows end the cycle, from any of its states. ROT's turns leave
the bound, and each of the sequencer's lowers it. -/
theorem endsCycleWithin_of_bound {s : State} {l rest : List Turn} (h : Inv s) (hr : s.run = true)
    (hturns : s.host.turns = l ++ rest) (hne : ∀ run, Turn.reset run ∉ l)
    (hbound : cycleStepsLeft s.orcPc s.att.val ≤ l.count .orc) : EndsCycleWithin l s := by
  induction l generalizing s with
  | nil =>
    obtain ⟨-, -, hseq⟩ := h.runMode hr
    rw [List.count_nil] at hbound
    exact absurd (cycleStepsLeft_pos hseq) (Nat.not_lt.2 hbound)
  | cons x l ih =>
    obtain ⟨hturn, hrest⟩ := turn_of_queue hturns
    have hne' : ∀ run, Turn.reset run ∉ l := fun run hmem => hne run (List.mem_cons_of_mem x hmem)
    obtain ⟨t, hst⟩ := inv_progress h
    have ht := inv_step h hst
    have hturns' : t.host.turns = l ++ rest := (step_turns hst).trans hrest
    cases x with
    | reset run => exact absurd List.mem_cons_self (hne run)
    | rot =>
      rw [List.count_cons_of_ne (show Turn.rot ≠ .orc from nofun)] at hbound
      obtain ⟨hrun, hpc, hatt⟩ := step_of_rotTurn_sequencer hturn hst
      rw [← hpc, ← hatt] at hbound
      exact .of_step hst (ih ht (hrun.trans hr) hturns' hne' hbound)
    | orc =>
      obtain ⟨hrun, hend | hless⟩ := step_descends h hr hturn hst
      · exact .of_last hst hend
      · rw [List.count_cons_self] at hbound
        exact .of_step hst (ih ht hrun hturns' hne' (Nat.le_of_lt_succ (lt_of_lt_of_le hless hbound)))

/-- Settles O46: at `P0` the bound is 310. -/
theorem cycleEndsWithin310Steps : Obligations.CycleEndsWithin310Steps := by
  unfold Obligations.CycleEndsWithin310Steps
  intro s l rest h hr hp hturns hne hcount
  refine endsCycleWithin_of_bound h hr hturns hne ?_
  rw [hp, hcount]
  exact le_rfl

end Sys2Proof.Machine

/-! ### O25, O26, O24: how operations and illegal words end -/

namespace Sys2Proof.Machine

/-- Settles O25: the table's row for every operation that writes `STATUS`, and the frame of `ROT.STEP`. -/
theorem operationsCompleteWithAllowedStatuses : Obligations.OperationsCompleteWithAllowedStatuses := by
  unfold Obligations.OperationsCompleteWithAllowedStatuses
  intro i s t h
  obtain rfl := exec_next_iff.1 h
  refine ⟨fun hi => (completed_endsWith s hi).status, ?_⟩
  rintro rfl
  exact rotStep_status s

/-! #### The state in which an operation raises -/

/-- No event of `es` reports a raise. -/
def NoReport (es : List Event) : Prop := ∀ op st, Event.report op st ∉ es

/-- A single event that is no `Report`. -/
theorem noReport_singleton {e : Event} (h : ∀ op st, Event.report op st ≠ e) : NoReport [e] :=
  fun op st hmem => h op st (List.mem_singleton.1 hmem)

/-- The events of a transaction's waits are no `Report`. -/
theorem noReport_pulses (w : List Nat) (n : Nat) : NoReport ([.lineLow 8600, .lineRelease] ++ pulseEvents w n) := by
  simp [NoReport, pulseEvents]

/-- What the operation `i`, started in `s`, has done by the state `u` in which it raises (R277): it has asked the host,
`FPP.READ` has cleared `RXLEN` and `FPP.CMD` has filled `TXBUF`. -/
structure ReadyToRaise (i : Instr) (s u : State) : Prop where
  frame : ∃ es, NoReport es ∧ u = { s with ev := s.ev ++ es, rxLen := u.rxLen, txBuf := u.txBuf, host := u.host }
  rxLen : u.rxLen = if i = .fppRead then 0 else s.rxLen
  txBuf : i ≠ .fppCmd → u.txBuf = s.txBuf

/-- An operation that raises at once. -/
theorem ReadyToRaise.atStart {i : Instr} (s : State) (hi : i ≠ .fppRead) : ReadyToRaise i s s where
  frame := ⟨[], fun _ _ => List.not_mem_nil, by rw [List.append_nil]⟩
  rxLen := (if_neg hi).symm
  txBuf _ := rfl

/-- `TSD.DECODE` raises behind its waits. -/
theorem readyToRaise_tsdDecode (s : State) (h : Inputs) (w : List Nat) (n : Nat) :
    ReadyToRaise .tsdDecode s (emit ([.lineLow 8600, .lineRelease] ++ pulseEvents w n) { s with host := h }) where
  frame := ⟨_, noReport_pulses w n, rfl⟩
  rxLen := rfl
  txBuf _ := rfl

/-- `FPP.READ` raises behind its read, with `RXLEN` cleared (R150). -/
theorem readyToRaise_fppRead (s : State) : ReadyToRaise .fppRead s { (hostRead s).2 with rxLen := 0 } where
  frame := ⟨[.read s.host.drawRead.1], noReport_singleton nofun, rfl⟩
  rxLen := rfl
  txBuf _ := rfl

/-- `FPP.CMD` raises behind its write, with the frame in `TXBUF` (R165). -/
theorem readyToRaise_fppCmd (s : State) : ReadyToRaise .fppCmd s (fppCmdAsked s) where
  frame := ⟨[.write (fppCmdFrame s.cmdOp s.cmdArg).toList s.host.drawWrite.1], noReport_singleton nofun, rfl⟩
  rxLen := rfl
  txBuf h := absurd rfl h

/-! #### The two ends of an operation -/

/-- The two ends of the operation `i` started in `s` (00_scope.md R12): the end of its pseudocode, or a raise. -/
inductive CompletesOrRaises (i : Instr) (s : State) : State → Prop where
  | completes (u : State) : CompletesOrRaises i s (complete u)
  | raises {u : State} (st : Status) (h : ReadyToRaise i s u) : CompletesOrRaises i s (raise (encode i) st u)

/-- `TSD.DECODE` raises at the first timeout or at the checksum (R137, R138). -/
theorem tsdDecode_completesOrRaises (s : State) : CompletesOrRaises .tsdDecode s (tsdDecode s) := by
  rcases tsdDecode_cases s with ⟨f, -, -, -, e⟩ | ⟨-, e⟩ <;> rw [e]
  · exact .raises _ (readyToRaise_tsdDecode s _ _ _)
  · rcases tsdFinish_cases _ _ with ⟨a, e⟩ | e <;> rw [e]
    · exact .completes _
    · exact .raises _ (readyToRaise_tsdDecode s _ _ _)

/-- Every operation but `ROT.STEP` ends in one of the two ways (R12, R271). -/
theorem completed_completesOrRaises {i : Instr} (s : State) (hi : i ≠ .rotStep) :
    CompletesOrRaises i s (completed i s) := by
  cases i with
  | rotStep => exact absurd rfl hi
  | nop | raaAdv | indBand | auxSample | waitRetry | waitCycle => exact .completes _
  | raaPush ch => cases ch <;> exact .completes _
  | tsdDecode => exact tsdDecode_completesOrRaises s
  | fppParse =>
    simp only [completed, fppParse]
    split
    · exact .raises _ (.atStart s nofun)
    · exact .completes _
  | raaAvg ch =>
    simp only [completed, raaAvg]
    split
    · exact .raises _ (.atStart s nofun)
    · exact .completes _
  | peEncode kind bank =>
    simp only [completed, peEncode]
    split
    · exact .completes _
    · exact .raises _ (.atStart s nofun)
  | fppRead =>
    simp only [completed, fppRead]
    split
    · exact .raises _ (readyToRaise_fppRead s)
    · exact .completes _
  | fppCmd =>
    simp only [completed]
    by_cases hsent : s.host.drawWrite.1 = .count Config.cmdLen
    · rw [fppCmd_of_sent hsent]
      exact .completes _
    · rw [fppCmd_of_failed hsent]
      exact .raises _ (readyToRaise_fppCmd s)

/-- Settles O26: with a status other than `OK` the operation raised, and a raise adds only `STATUS`, `FATAL`,
`FATAL_CODE` and one `Report` to what was done before it. -/
theorem raisingOperationsLeaveTheRest : Obligations.RaisingOperationsLeaveTheRest := by
  unfold Obligations.RaisingOperationsLeaveTheRest
  intro i s t h hi hst
  have hend : CompletesOrRaises i s t := exec_next_iff.1 h ▸ completed_completesOrRaises s hi
  cases hend with
  | completes u => exact absurd (complete_status u) hst
  | @raises u st hu =>
    obtain ⟨⟨es, hes, hframe⟩, hrxLen, htxBuf⟩ := hu
    exact ⟨⟨es, hes, congrArg (raise (encode i) st) hframe⟩, hrxLen, htxBuf⟩

/-! #### Illegal words -/

/-- Settles O24: an illegal word of the host is a raise of `ILLEGAL_OP`, and each row's word and `ROT.STEP` decode. -/
theorem illegalWordRaisesAndNothingElse : Obligations.IllegalWordRaisesAndNothingElse := by
  unfold Obligations.IllegalWordRaisesAndNothingElse
  refine ⟨?host, fun s w hw => orcWord_legal hw, ⟨.rotStep, rfl⟩⟩
  case host =>
    intro s w h e hr ht hw hd
    rw [step_of_hostTurn hr ht hw, issue_illegal hd, raise_illegalOp]

end Sys2Proof.Machine

/-! ### O37, O29: parameters and strap through a step, and what a reset leaves -/

namespace Sys2Proof.Machine

/-- Only a reset changes `RUN` (R37): no operation, no raise and no move of the sequencer writes it. -/
theorem step_run {s t : State} (hst : step s = .next t) (hne : ∀ run, turnOf s ≠ .reset run) : t.run = s.run := by
  rcases step_executes hst with ⟨run, ht, -⟩ | ⟨e, -⟩ | ⟨i, host, -, -, e⟩ | ⟨w, host, -, e⟩
  · exact absurd ht (hne run)
  · rw [e, rotStep_run, afterTurn_run]
  · have hrun : (completed i { s with host := host }).run = s.run := (completed_writesOnly i _).run
    rcases e with e | ⟨a, e⟩
    · rw [e, hrun]
    · rw [e, sequence_run, hrun]
  · rw [e, raise_run]

/-- Settles O37: the parameters outlive even a reset, `RUN` every other step. -/
theorem parametersNeverChange : Obligations.ParametersNeverChange := by
  unfold Obligations.ParametersNeverChange
  intro s t hst
  exact ⟨step_cfg hst, step_run hst⟩

/-- A reset always takes place, in the state from which its turn has been drawn (R300). -/
theorem step_of_resetTurn {s : State} {run : Bool} (ht : turnOf s = .reset run) :
    step s = .next (State.afterReset s.cfg run (afterTurn s).host) := by
  rw [step_eq_takeTurn, ht, takeTurn, takeReset, afterTurn_cfg]

/-- Settles O29: the state after a reset, each register and memory at its value in R54's table. -/
theorem resetIsOneAction : Obligations.ResetIsOneAction := by
  unfold Obligations.ResetIsOneAction
  intro s run ht
  rw [step_of_resetTurn ht, State.afterReset, zeroRecord, SampleA.zero, SampleB.zero]

end Sys2Proof.Machine
